-- ==== Sys2Proof/Word.lean ====
section
/-! DEFINITION. The word types of the block: command and response words, frame bytes, channel values. -/

namespace Sys2Proof

/-- A command word or a response word: 32 bits (CMD_W and RESP_W of R7; R70, R83). -/
abbrev Word := BitVec 32

/-- A frame byte: 8 bits, bit 7 the most significant (R24, R51). -/
abbrev Byte := BitVec 8

/-- A channel value: 12 bits, unsigned, so always in [0, 4095] (CH_W of R6; R21, R23). -/
abbrev ChanVal := BitVec 12

end Sys2Proof
end

