-- ==== Sys2Proof/Config.lean ====
section
/-! DEFINITION. The parameters the spec leaves open, as constants without a value. The parameters the spec FIXES
(R6: 24 channels of 12 bits, 36 bytes of 8 bits, 12 pairs; R7: 32-bit words, 16-bit value, 6-bit index, one device)
are the types and numerals of the model and stand where they are used. -/

namespace Sys2Proof

/-- The two byte orders a byte-wide link can carry a 32-bit command word in. -/
inductive ByteOrder
  | littleEndian
  | bigEndian
  deriving DecidableEq, Repr, Inhabited

/-- CMD_PORT_BASE (R61, 92_eei_decisions.md D26): where the command port sits in a host's address space.
OPEN in the spec, and the block's semantics do not read it: no definition of the model does (log 12). -/
opaque Config.cmdPortBase : Nat

/-- CMD_WORD_BYTE_ORDER (92_eei_decisions.md D30): the byte order of a command word on a byte-wide link.
OPEN in the spec; it belongs to the link, and only the link helpers of Decode.lean read it (log 12). -/
opaque Config.cmdWordByteOrder : ByteOrder

end Sys2Proof
end

