-- ==== Sys2Proof/Syntax.lean ====
section
/-! DEFINITION. The commands of command set version 1 (R2, R74): one constructor per row of spec/opcode_table.json. -/

namespace Sys2Proof

/-- One command. An index operand is the unsigned integer of R73, a value operand the signed integer of R72. -/
inductive Instr
  | nop                            -- R102
  | clear                          -- R103
  | load (ch : Nat) (val : Int)    -- R104
  | push (val : Int)               -- R105
  | encode                         -- R136
  | xmit                           -- R160
  | rdfb (byte : Nat)              -- R161
  | rdch (ch : Nat)                -- R162
  | rdstat                         -- R163
  | rderr                          -- R164
  | clrstat                        -- R165
  deriving DecidableEq, Repr

end Sys2Proof
end

