-- ==== Sys2Proof/WellFormed.lean ====
section
/-! DEFINITION. Well-formed commands: every operand fits its field. An index of 24 to 63 is well formed: it
assembles, and the command then raises BAD_INDEX when run (R84). -/

namespace Sys2Proof

/-- An index operand fits the 6-bit field IDX: 0 to 63 (R73, R84). -/
abbrev IdxFits (i : Nat) : Prop := i ≤ 63

/-- A value operand fits the 16-bit two's-complement field VAL: -32768 to 32767 (R72, R84). -/
abbrev ValFits (v : Int) : Prop := -32768 ≤ v ∧ v ≤ 32767

/-- The check: each operand the command has fits its field. -/
def Instr.wf : Instr → Bool
  | .nop => true
  | .clear => true
  | .load ch val => decide (IdxFits ch) && decide (ValFits val)
  | .push val => decide (ValFits val)
  | .encode => true
  | .xmit => true
  | .rdfb byte => decide (IdxFits byte)
  | .rdch ch => decide (IdxFits ch)
  | .rdstat => true
  | .rderr => true
  | .clrstat => true

/-- `i` is well formed: the check passes. -/
abbrev Instr.WellFormed (i : Instr) : Prop := i.wf = true

end Sys2Proof
end

