-- ==== Sys2Proof/Decode.lean ====
section
/-! DEFINITION. The decoder, total on every 32-bit word and rejecting by name, and after it the encoder, both from
the encoding tables of 30_encoding.md (R70 to R79). Decoding reads no state (R78). -/

namespace Sys2Proof

/-- The command errors of R200 that a word can raise. NONE (code 0) is never raised, so it is not one of them.
The decoder raises the first two; LOAD, RDCH and RDFB raise the third when they run (R79). -/
inductive CmdError
  | illegalOpcode
  | reservedField
  | badIndex
  deriving DecidableEq, Repr

/-- What a word spells (R77): a command with its operands, or an error by name. -/
inductive Decoded
  | command (i : Instr)
  | malformed (e : CmdError)
  deriving DecidableEq, Repr

/-- The opcodes of R74, 0x0 to 0xA. -/
inductive Opcode
  | nop | clear | load | push | encode | xmit | rdfb | rdch | rdstat | rderr | clrstat
  deriving DecidableEq, Repr

/-- The number of an opcode (R74). -/
def Opcode.code : Opcode → BitVec 4
  | .nop => 0x0
  | .clear => 0x1
  | .load => 0x2
  | .push => 0x3
  | .encode => 0x4
  | .xmit => 0x5
  | .rdfb => 0x6
  | .rdch => 0x7
  | .rdstat => 0x8
  | .rderr => 0x9
  | .clrstat => 0xA

/-- The opcode a number stands for; 0xB to 0xF are reserved (R74, R76). -/
def opcodeOf (n : Nat) : Option Opcode :=
  match n with
  | 0x0 => some .nop
  | 0x1 => some .clear
  | 0x2 => some .load
  | 0x3 => some .push
  | 0x4 => some .encode
  | 0x5 => some .xmit
  | 0x6 => some .rdfb
  | 0x7 => some .rdch
  | 0x8 => some .rdstat
  | 0x9 => some .rderr
  | 0xA => some .clrstat
  | _ => none

/-- `ZMASK[OP]`: the bits that must be 0 (R75). -/
def Opcode.zmask : Opcode → Word
  | .nop => 0x0FFFFFFF
  | .clear => 0x0FFFFFFF
  | .load => 0x003F0000
  | .push => 0x0FFF0000
  | .encode => 0x0FFFFFFF
  | .xmit => 0x0FFFFFFF
  | .rdfb => 0x003FFFFF
  | .rdch => 0x003FFFFF
  | .rdstat => 0x0FFFFFFF
  | .rderr => 0x0FFFFFFF
  | .clrstat => 0x0FFFFFFF

/-- The field OP, `w[31:28]` (R71). -/
def opField (w : Word) : Nat := (w.extractLsb' 28 4).toNat

/-- The field IDX, `w[27:22]`, as the unsigned integer `i` of R73. -/
def idxField (w : Word) : Nat := (w.extractLsb' 22 6).toNat

/-- The field VAL, `w[15:0]`, as the signed integer `v = sext_32(w[15:0])` of R72. -/
def valField (w : Word) : Int := ((w.extractLsb' 0 16).signExtend 32).toInt

/-- The command an opcode selects, with the fields it uses (R74). -/
def Opcode.command (o : Opcode) (idx : Nat) (val : Int) : Instr :=
  match o with
  | .nop => .nop
  | .clear => .clear
  | .load => .load idx val
  | .push => .push val
  | .encode => .encode
  | .xmit => .xmit
  | .rdfb => .rdfb idx
  | .rdch => .rdch idx
  | .rdstat => .rdstat
  | .rderr => .rderr
  | .clrstat => .clrstat

/-- The decoder: the first two checks of R79, in their order, then the command (R76, R77). The index checks of
R79 depend on the command and stand in its meaning. -/
def decode (w : Word) : Decoded :=
  match opcodeOf (opField w) with
  | none => .malformed .illegalOpcode
  | some o =>
    if w &&& o.zmask ≠ 0 then .malformed .reservedField
    else .command (o.command (idxField w) (valField w))

/-- The opcode of a command (R74). -/
def Instr.opcode : Instr → Opcode
  | .nop => .nop
  | .clear => .clear
  | .load _ _ => .load
  | .push _ => .push
  | .encode => .encode
  | .xmit => .xmit
  | .rdfb _ => .rdfb
  | .rdch _ => .rdch
  | .rdstat => .rdstat
  | .rderr => .rderr
  | .clrstat => .clrstat

/-- The field IDX of a command's word: its index operand, else 0 (R71, R74). -/
def Instr.idx : Instr → Nat
  | .load ch _ => ch
  | .rdfb byte => byte
  | .rdch ch => ch
  | .nop | .clear | .push _ | .encode | .xmit | .rdstat | .rderr | .clrstat => 0

/-- The field VAL of a command's word, as a signed integer: its value operand, else 0 (R71, R74). -/
def Instr.val : Instr → Int
  | .load _ val => val
  | .push val => val
  | .nop | .clear | .encode | .xmit | .rdfb _ | .rdch _ | .rdstat | .rderr | .clrstat => 0

/-- The four fields of R71 laid out in one word: OP, IDX, RSV = 0, VAL. -/
def layOut (op : BitVec 4) (idx : BitVec 6) (val : BitVec 16) : Word :=
  op ++ idx ++ (0 : BitVec 6) ++ val

/-- The encoder: the word of a command (R84). On a command that is not well formed an operand is cut to its field;
no such command comes out of the decoder (log 11). -/
def encode (i : Instr) : Word :=
  layOut i.opcode.code (BitVec.ofNat 6 i.idx) (BitVec.ofInt 16 i.val)

/-- The four bytes of a word on a byte-wide link of the given order, first byte first (D30; log 12). -/
def bytesOfWord (order : ByteOrder) (w : Word) : List Byte :=
  match order with
  | .littleEndian => [w.extractLsb' 0 8, w.extractLsb' 8 8, w.extractLsb' 16 8, w.extractLsb' 24 8]
  | .bigEndian => [w.extractLsb' 24 8, w.extractLsb' 16 8, w.extractLsb' 8 8, w.extractLsb' 0 8]

/-- The word that four link bytes carry, the inverse of `bytesOfWord` (D30; log 12). -/
def wordOfBytes (order : ByteOrder) (b0 b1 b2 b3 : Byte) : Word :=
  match order with
  | .littleEndian => b3 ++ b2 ++ b1 ++ b0
  | .bigEndian => b0 ++ b1 ++ b2 ++ b3

/-- A link's bytes decoded: the first four give one decoded word, and the rest follows; fewer than four give no
word. The block takes whole words (R70), so this is the link's side of the port, in the order the platform fixes. -/
def decodeBytes (bytes : List Byte) : Option (Decoded × List Byte) :=
  match bytes with
  | b0 :: b1 :: b2 :: b3 :: rest => some (decode (wordOfBytes Config.cmdWordByteOrder b0 b1 b2 b3), rest)
  | _ => none

/-- The link bytes of a command. -/
def encodeBytes (i : Instr) : List Byte := bytesOfWord Config.cmdWordByteOrder (encode i)

/-- The word whose bits the opcode table numbers: `w` cut to the row's `nbits` bits, the bits above them 0. -/
def tableWord (nbits w : Nat) : Word := BitVec.ofNat 32 (w % 2 ^ nbits)

/-- The command the decoder reads from a word of the opcode table, none where it rejects the word. -/
def decodeTableWord (nbits w : Nat) : Option Instr :=
  match decode (tableWord nbits w) with
  | .command i => some i
  | .malformed _ => none

end Sys2Proof
end

