-- ==== Sys2Proof/Machine/State.lean ====
section
/-! DEFINITION. The state: the spec's tuple S of R20 as `Block`, and around it the three channels of the host
interface (R81): the inputs not yet taken, the completions returned, the frames emitted. All of it is plain data. -/

namespace Sys2Proof.Machine

/-- The contents of the register CAUSE (R30), with the names of R200. Its codes 4 to 15 are never held
(93_implementation_defined.md I9), so the type has none (log 5). -/
inductive Cause
  | none
  | illegalOpcode
  | reservedField
  | badIndex
  deriving DecidableEq, Repr

/-- The completion of one command (R83). -/
inductive Completion
  /-- `ok`: the command succeeded and has no data. -/
  | ok
  /-- `ok(d)`: the command succeeded and returns 32 bits of data. -/
  | okData (d : Word)
  /-- `error(c)`: a command error, and no data. -/
  | error (e : CmdError)
  deriving DecidableEq, Repr

/-- What the outside can put to the block between two steps (R81). -/
inductive Input
  /-- The host issues a command word. -/
  | command (w : Word)
  /-- The platform asserts reset (R230). -/
  | reset
  deriving DecidableEq, Repr

/-- The channel register file: `CH[k]` at index k (R21). -/
abbrev Channels := Vector ChanVal 24

/-- The frame buffer: `FB[k]` at index k (R24). -/
abbrev Frame := Vector Byte 36

/-- One emitted frame, in transmission order: index 0 is the byte shifted out first (R160). -/
abbrev TxFrame := Vector Byte 36

/-- The architectural state of one block, the tuple S of R20, nothing more (R36 to R38, R40). -/
structure Block where
  /-- `CH[0..23]` (R21). -/
  ch : Channels
  /-- `FB[0..35]`, the frame the last ENCODE latched (R24, R25). -/
  fb : Frame
  /-- `WPTR`, the channel PUSH writes next; 24 when all are filled, and 25 to 31 are never held (R27, I9; log 5). -/
  wptr : Fin 25
  /-- `DIRTY`: a command has written CH since the last ENCODE or reset (R28). -/
  dirty : Bool
  /-- `ERR`, sticky: some command ended in a command error (R29). -/
  err : Bool
  /-- `CAUSE` of the first command error (R30). -/
  cause : Cause
  /-- `ERRWORD`, the word of the first command error (R31). -/
  errword : Word
  /-- `CLAMP_LO`, sticky: a channel was written from a value below 0 (R32). -/
  clampLo : Bool
  /-- `CLAMP_HI`, sticky: a channel was written from a value above 4095 (R33). -/
  clampHi : Bool
  /-- `OVF`, sticky: a PUSH was ignored (R34). -/
  ovf : Bool
  deriving DecidableEq, Repr

/-- The machine: one block and its host interface. -/
structure State where
  /-- The spec's state (R20). -/
  block : Block
  /-- What the host and the platform have put to the block and it has not taken yet, oldest first
  (R81, R82; the model's own field, log 1). -/
  inputs : List Input
  /-- Every completion so far, oldest first (R39, R83; the model's own field, log 2). -/
  completions : List Completion
  /-- Every frame handed to the transport so far, oldest first (R39, R64; the model's own field, log 2). -/
  frames : List TxFrame
  deriving DecidableEq, Repr

/-- Why the machine stops: it never does. A command error completes and the next command runs (R201), so there is
no reason to name, and the type has no constructor (log 6). -/
inductive Fault
  deriving DecidableEq, Repr

/-- Why an instruction has no meaning. -/
inductive Refusal
  /-- Raised by an arm of `exec` for an instruction that has no meaning yet (safe). No arm of this model raises it. -/
  | notModelled (mnemonic : String)
  deriving DecidableEq, Repr

/-- Every element of the block at its reset value (the table of R230). -/
def Block.reset : Block where
  ch := Vector.replicate 24 0
  fb := Vector.replicate 36 0
  wptr := 0
  dirty := false
  err := false
  cause := .none
  errword := 0
  clampLo := false
  clampHi := false
  ovf := false

/-- The machine right after reset: the block as R230 says, and nothing yet on the interface (log 1, log 2, log 4). -/
def State.reset : State where
  block := Block.reset
  inputs := []
  completions := []
  frames := []

end Sys2Proof.Machine
end

