-- ==== Sys2Proof/Machine/Operands.lean ====
section
/-! DEFINITION. What the block computes from operands: clamping a value to a channel value (R100), and the
saturation a host applies to a wide integer before it fills VAL (R106). -/

namespace Sys2Proof.Machine

/-- `clamp12(v)`: a signed integer of any width saturated to [0, 4095]; it never wraps or masks (R100). -/
def clamp12 (v : Int) : ChanVal :=
  if v < 0 then 0
  else if 4095 < v then 4095
  else BitVec.ofNat 12 v.toNat

/-- `sat16(x) = min(max(x, -32768), 32767)` (R85, R106; that the host applies it is log 17). -/
def sat16 (x : Int) : Int := min (max x (-32768)) 32767

end Sys2Proof.Machine
end

