-- ==== Sys2Proof/Machine/Flags.lean ====
section
/-! DEFINITION. The status flags: `note` (R101), the cause codes (R200), and the STATUS view (R35). -/

namespace Sys2Proof.Machine

/-- `note(v)`: the sticky flag for a value outside [0, 4095] that a channel is written from (R101). -/
def Block.note (b : Block) (v : Int) : Block :=
  { b with
    clampLo := b.clampLo || decide (v < 0)
    clampHi := b.clampHi || decide (4095 < v) }

/-- The code of a cause in the 4-bit register CAUSE (R200). -/
def Cause.code : Cause → BitVec 4
  | .none => 0
  | .illegalOpcode => 1
  | .reservedField => 2
  | .badIndex => 3

/-- The cause an error is recorded under (R200). -/
def errorCause : CmdError → Cause
  | .illegalOpcode => .illegalOpcode
  | .reservedField => .reservedField
  | .badIndex => .badIndex

/-- A flag as a bit of a 32-bit word. -/
def flagBit (f : Bool) : Word := if f then 1 else 0

/-- STATUS: the 32-bit read-only view, by the pseudocode of R35. -/
def Block.status (b : Block) : Word :=
  BitVec.ofNat 32 b.wptr.val <<< 16 ||| b.cause.code.setWidth 32 <<< 8 |||
    flagBit b.ovf <<< 4 ||| flagBit b.clampHi <<< 3 ||| flagBit b.clampLo <<< 2 |||
    flagBit b.err <<< 1 ||| flagBit b.dirty

end Sys2Proof.Machine
end

