-- ==== Sys2Proof/Machine/Ops.lean ====
section
/-! DEFINITION. The named operations every meaning is written over: register access (R11), completions (R83), frame
emission (R160), raising a command error (R201), and the host interface's inputs (R81). -/

namespace Sys2Proof.Machine

/-- `CH[k] <- v` (R11); a write replaces all 12 bits (R22). -/
def Block.writeCh (b : Block) (k : Nat) (h : k < 24) (v : ChanVal) : Block :=
  { b with ch := b.ch.set k v h }

/-- A channel written from a signed value: `CH[k] <- clamp12(v); note(v); DIRTY <- 1`, what LOAD and PUSH share
(R104, R105). -/
def Block.writeClamped (b : Block) (k : Nat) (h : k < 24) (v : Int) : Block :=
  { (b.writeCh k h (clamp12 v)).note v with dirty := true }

/-- The state with another block, the interface untouched. -/
def State.setBlock (s : State) (b : Block) : State := { s with block := b }

/-- `Respond()`: an `ok` completion (R83). -/
def State.respond (s : State) : State := { s with completions := s.completions ++ [.ok] }

/-- `Respond(d)`: an `ok(d)` completion (R83). -/
def State.respondData (s : State) (d : Word) : State := { s with completions := s.completions ++ [.okData d] }

/-- `Emit(bytes)`: hands one frame to the transport collaborator, after every earlier one (R64, R160; it accepts every
frame, log 7). -/
def State.emit (s : State) (f : TxFrame) : State := { s with frames := s.frames ++ [f] }

/-- The first-error capture (R202): an error while ERR = 1 changes nothing. -/
def Block.captureError (b : Block) (e : CmdError) (w : Word) : Block :=
  if b.err then b else { b with err := true, cause := errorCause e, errword := w }

/-- `raise CmdError(cause)` for the command word `w`: the first-error capture and an `error` completion, and no other
effect (R201). This is the whole of the block's exception entry: there is no trap, vector, saved pc or mode (R207),
and nothing to return from; CLRSTAT re-arms the capture (R208). -/
def State.raiseCmdError (s : State) (e : CmdError) (w : Word) : State :=
  { s with block := s.block.captureError e w, completions := s.completions ++ [.error e] }

/-- Reset: every element of the block at its reset value, no completion, no frame (R230, R231; log 8). -/
def State.resetBlock (s : State) : State := { s with block := Block.reset }

/-- The oldest input not yet taken, and the state in which it is taken (R82). -/
def State.nextInput (s : State) : Option (Input × State) :=
  match s.inputs with
  | [] => none
  | x :: rest => some (x, { s with inputs := rest })

/-- The host issues a command word: it goes behind every earlier input (R81, R82). -/
def State.issue (s : State) (w : Word) : State := { s with inputs := s.inputs ++ [.command w] }

/-- The platform asserts reset, after every input so far (R81, R230). -/
def State.assertReset (s : State) : State := { s with inputs := s.inputs ++ [.reset] }

/-- The state in which `w` is the command the block takes next, before every input of `s`. -/
def State.offer (s : State) (w : Word) : State := { s with inputs := .command w :: s.inputs }

/-- The state in which reset is what happens next, before every input of `s`. -/
def State.offerReset (s : State) : State := { s with inputs := .reset :: s.inputs }

end Sys2Proof.Machine
end

