-- ==== Sys2Proof/Machine/Frame.lean ====
section
/-! DEFINITION. The frame: the pure function `encode` from 24 channel values to 36 bytes (R130 to R133), its inverse
(R138), the order the frame is handed over in (R52) and its serial bit stream (R53, R54). Where the source's prose
differs, the byte formula governs (90_conflicts.md C2; log 9). -/

namespace Sys2Proof.Machine

/-- Byte hi of a pair: `first & 0xFF` (R131). -/
def byteHi (first : Nat) : Byte := BitVec.ofNat 8 (first &&& 0xFF)

/-- Byte hi-1 of a pair: `((first >> 8) & 0xF) << 4 | (second & 0xF)` (R132). -/
def byteMid (first second : Nat) : Byte :=
  BitVec.ofNat 8 (((first >>> 8) &&& 0xF) <<< 4 ||| (second &&& 0xF))

/-- Byte hi-2 of a pair: `(second & 0xFF0) >> 4` (R133). -/
def byteLo (second : Nat) : Byte := BitVec.ofNat 8 ((second &&& 0xFF0) >>> 4)

/-- `hi` of pair `p`: the highest byte index of its window (R130). -/
def windowHi (p : Nat) : Nat := 35 - 3 * p

/-- The byte window of pair `p`, highest index first (R130). -/
def window (p : Nat) : Nat × Nat × Nat := (windowHi p, windowHi p - 1, windowHi p - 2)

/-- The pair whose window holds byte `k`: the windows cover bytes 0 to 35 once each (R130). -/
def pairOfByte (k : Nat) : Nat := (35 - k) / 3

/-- Byte `k` of `encode(c)`: its pair's first and second channel through the formula of R131 to R133. -/
def frameByte (chs : Channels) (k : Nat) : Byte :=
  let p := pairOfByte k
  let first := chs[23 - 2 * p].toNat
  let second := chs[22 - 2 * p].toNat
  if k = windowHi p then byteHi first
  else if k = windowHi p - 1 then byteMid first second
  else byteLo second

/-- `encode(c)`: the 36 frame bytes of 24 channel values, a pure function of them (R130, R140). -/
def encodeFrame (chs : Channels) : Frame := ⟨((List.range 36).map (frameByte chs)).toArray, by simp⟩

/-- Channel `k` read back from frame bytes: the inverse of R138, with q = k div 2. -/
def channelOfFrame (fb : Frame) (k : Fin 24) : ChanVal :=
  let q := k.val / 2
  if k.val % 2 = 1 then fb[3 * q + 1].extractLsb' 4 4 ++ fb[3 * q + 2]
  else fb[3 * q] ++ fb[3 * q + 1].extractLsb' 0 4

/-- The inverse of `encodeFrame` (R138, 90_conflicts.md C3). -/
def decodeFrame (fb : Frame) : Channels := Vector.ofFn (channelOfFrame fb)

/-- The frame in the order XMIT hands it over: FB[35] first, FB[0] last (R52, R160). -/
def txOrder (fb : Frame) : TxFrame := Vector.ofFn fun j : Fin 36 => fb[35 - j.val]

/-- The serial bit stream of a frame buffer: `S(n) = FB[35 - (n div 8)][7 - (n mod 8)]`, for n = 0 to 287 (R54). -/
def streamBit (fb : Frame) (n : Nat) : Bool := fb[35 - n / 8].getLsbD (7 - n % 8)

/-- Bit `n` of an emitted frame as the transport shifts it out, n = 0 to 287: byte after byte, each most significant
bit first (R53, R160). -/
def txBit (f : TxFrame) (n : Nat) (h : n < 288) : Bool := f[n / 8].getMsbD (n % 8)

end Sys2Proof.Machine
end

