-- ==== Sys2Proof/Machine/ChannelLoad.lean ====
section
/-! DEFINITION. The meanings of NOP, CLEAR, LOAD and PUSH (40_channel_load.md). -/

namespace Sys2Proof.Machine

/-- CLEAR's effect on the block: every channel 0, WPTR 0, DIRTY 1 (R103). -/
def Block.clearChannels (b : Block) : Block :=
  { b with ch := Vector.replicate 24 0, wptr := 0, dirty := true }

/-- PUSH's effect on the block (R105): the next channel is written and WPTR moves on, or, when all 24 are filled,
the value is ignored and only OVF is set. -/
def Block.pushValue (b : Block) (v : Int) : Block :=
  if h : b.wptr.val < 24 then
    { b.writeClamped b.wptr.val h v with wptr := ⟨b.wptr.val + 1, Nat.succ_lt_succ h⟩ }
  else { b with ovf := true }

/-- NOP (R102). -/
def execNop (s : State) : Host.Outcome State Fault Refusal := .next s.respond

/-- CLEAR (R103). -/
def execClear (s : State) : Host.Outcome State Fault Refusal :=
  .next (s.setBlock s.block.clearChannels).respond

/-- LOAD ch, val (R104); a channel index of 24 to 63 raises BAD_INDEX (R79). The word of the error is the command's
own (log 11). -/
def execLoad (ch : Nat) (val : Int) (s : State) : Host.Outcome State Fault Refusal :=
  if h : ch < 24 then .next (s.setBlock (s.block.writeClamped ch h val)).respond
  else .next (s.raiseCmdError .badIndex (encode (.load ch val)))

/-- PUSH val (R105); an ignored PUSH completes `ok` too (R204). -/
def execPush (val : Int) (s : State) : Host.Outcome State Fault Refusal :=
  .next (s.setBlock (s.block.pushValue val)).respond

end Sys2Proof.Machine
end

