-- ==== Sys2Proof/Machine/FrameEncode.lean ====
section
/-! DEFINITION. The meaning of ENCODE (41_frame_encode.md). -/

namespace Sys2Proof.Machine

/-- ENCODE's effect on the block: FB latches the frame of all 24 channels at once, DIRTY 0 (R136). -/
def Block.latchFrame (b : Block) : Block := { b with fb := encodeFrame b.ch, dirty := false }

/-- ENCODE (R136). -/
def execEncode (s : State) : Host.Outcome State Fault Refusal := .next (s.setBlock s.block.latchFrame).respond

end Sys2Proof.Machine
end

