-- ==== Sys2Proof/Machine/OutputStatus.lean ====
section
/-! DEFINITION. The meanings of XMIT, RDFB, RDCH, RDSTAT, RDERR and CLRSTAT (42_output_status.md). -/

namespace Sys2Proof.Machine

/-- CLRSTAT's effect on the block: the six sticky fields 0 (R165). -/
def Block.clearStatus (b : Block) : Block :=
  { b with err := false, cause := .none, errword := 0, clampLo := false, clampHi := false, ovf := false }

/-- XMIT (R160): one frame handed over, no state of the block written. -/
def execXmit (s : State) : Host.Outcome State Fault Refusal := .next (s.emit (txOrder s.block.fb)).respond

/-- RDFB byte (R161); an index of 36 to 63 raises BAD_INDEX (R79). -/
def execRdfb (byte : Nat) (s : State) : Host.Outcome State Fault Refusal :=
  if h : byte < 36 then .next (s.respondData (s.block.fb[byte].setWidth 32))
  else .next (s.raiseCmdError .badIndex (encode (.rdfb byte)))

/-- RDCH ch (R162); an index of 24 to 63 raises BAD_INDEX (R79). -/
def execRdch (ch : Nat) (s : State) : Host.Outcome State Fault Refusal :=
  if h : ch < 24 then .next (s.respondData (s.block.ch[ch].setWidth 32))
  else .next (s.raiseCmdError .badIndex (encode (.rdch ch)))

/-- RDSTAT (R163). -/
def execRdstat (s : State) : Host.Outcome State Fault Refusal := .next (s.respondData s.block.status)

/-- RDERR (R164). -/
def execRderr (s : State) : Host.Outcome State Fault Refusal := .next (s.respondData s.block.errword)

/-- CLRSTAT (R165). -/
def execClrstat (s : State) : Host.Outcome State Fault Refusal :=
  .next (s.setBlock s.block.clearStatus).respond

end Sys2Proof.Machine
end

