-- ==== Sys2Proof/Machine/Dispatch.lean ====
section
/-! DEFINITION. `exec`: one arm per command, each one direct call of the command's meaning. -/

namespace Sys2Proof.Machine

/-- The effect of one command (R74, R79): the rule of its opcode. -/
def exec (i : Instr) (s : State) : Host.Outcome State Fault Refusal :=
  match i with
  | .nop => Sys2Proof.Machine.execNop s
  | .clear => Sys2Proof.Machine.execClear s
  | .load ch val => Sys2Proof.Machine.execLoad ch val s
  | .push val => Sys2Proof.Machine.execPush val s
  | .encode => Sys2Proof.Machine.execEncode s
  | .xmit => Sys2Proof.Machine.execXmit s
  | .rdfb byte => Sys2Proof.Machine.execRdfb byte s
  | .rdch ch => Sys2Proof.Machine.execRdch ch s
  | .rdstat => Sys2Proof.Machine.execRdstat s
  | .rderr => Sys2Proof.Machine.execRderr s
  | .clrstat => Sys2Proof.Machine.execClrstat s

end Sys2Proof.Machine
end

