-- ==== Sys2Proof/Machine/Step.lean ====
section
/-! DEFINITION. One step: the oldest input is taken and run whole, so steps never overlap (R12, R79, R82; log 14). -/

namespace Sys2Proof.Machine

/-- One step. A command word is decoded and runs, or raises its error; a reset sets the block to its reset values
(R230); with no input the block holds its state (R215; log 3). -/
def step (s : State) : Host.Outcome State Fault Refusal :=
  match s.nextInput with
  | none => .next s
  | some (.reset, t) => .next t.resetBlock
  | some (.command w, t) =>
    match decode w with
    | .malformed e => .next (t.raiseCmdError e w)
    | .command i => exec i t

/-- `s` with the opcode table's word `w` of `nbits` bits as the command the next step takes (log 4). -/
def State.withFetchWord (s : State) (nbits w : Nat) : State := s.offer (tableWord nbits w)

end Sys2Proof.Machine
end

