-- ==== Sys2Proof/Machine/Assembler.lean ====
section
/-! DEFINITION. The host's side of the command port: the pseudo-instructions (R85) and the assembler's syntax (R84).
Text is a list of characters. What R84 does not say of the text's form is this file's choice (log 13). -/

namespace Sys2Proof.Machine

/-- `FRAME` expands to `ENCODE` then `XMIT` (R85). -/
def pseudoFrame : List Instr := [.encode, .xmit]

/-- `PUSHI x`, for any integer x, expands to `PUSH sat16(x)` (R85). -/
def pseudoPushi (x : Int) : Instr := .push (sat16 x)

/-- `LOADI ch, x`, for any integer x, expands to `LOAD ch, sat16(x)` (R85). -/
def pseudoLoadi (ch : Nat) (x : Int) : Instr := .load ch (sat16 x)

/-- `LOADLIST v0, ..., v(n-1)` expands to `CLEAR`, then `PUSHI` of each value in order (R85). -/
def pseudoLoadlist (vs : List Int) : List Instr := .clear :: vs.map pseudoPushi

/-- `SETALL x` expands to `LOADI k, x` for k = 0 to 23, in channel order (R85). -/
def pseudoSetall (x : Int) : List Instr := (List.range 24).map fun k => pseudoLoadi k x

/-- A space or a tab. -/
def isBlank (c : Char) : Bool := c == ' ' || c == '\t'

/-- Text without the blanks at its two ends. -/
def trimBlanks (t : List Char) : List Char := ((t.dropWhile isBlank).reverse.dropWhile isBlank).reverse

/-- The pieces of a text between its commas, at least one. -/
def splitCommas (t : List Char) : List (List Char) :=
  match t with
  | [] => [[]]
  | x :: rest =>
    match splitCommas rest with
    | [] => [[x]]
    | piece :: pieces => if x == ',' then [] :: piece :: pieces else (x :: piece) :: pieces

/-- The value of a decimal digit. -/
def decDigit (c : Char) : Option Nat := if c.isDigit then some (c.toNat - '0'.toNat) else none

/-- The value of a hexadecimal digit, of either case. -/
def hexDigit (c : Char) : Option Nat :=
  if c.isDigit then some (c.toNat - '0'.toNat)
  else if 'A' ≤ c.toUpper ∧ c.toUpper ≤ 'F' then some (c.toUpper.toNat - 'A'.toNat + 10)
  else none

/-- The digits of a number in a base, most significant first, continuing from `acc`. -/
def parseDigits (base : Nat) (digit : Char → Option Nat) (acc : Nat) (t : List Char) : Option Nat :=
  match t with
  | [] => some acc
  | x :: rest =>
    match digit x with
    | some d => parseDigits base digit (acc * base + d) rest
    | none => none

/-- A number of at least one digit. -/
def parseNumber (base : Nat) (digit : Char → Option Nat) (t : List Char) : Option Nat :=
  if t = [] then none else parseDigits base digit 0 t

/-- The digits of a hexadecimal literal `0x...`, none for any other text (R10). -/
def hexBody (t : List Char) : Option (List Char) :=
  match t with
  | '0' :: x :: rest => if x.toUpper == 'X' then some rest else none
  | _ => none

/-- An unsigned number, decimal or `0x...` (that an index may be written so is DESIGN CHOICE, log 13). -/
def parseUnsigned (t : List Char) : Option Nat :=
  match hexBody t with
  | some body => parseNumber 16 hexDigit body
  | none => parseNumber 10 decDigit t

/-- A signed decimal number. -/
def parseSigned (t : List Char) : Option Int :=
  match t with
  | '-' :: rest => (parseNumber 10 decDigit rest).map fun n => -(n : Int)
  | rest => (parseNumber 10 decDigit rest).map fun n => (n : Int)

/-- `ch` and `byte`: any value 0 to 63; anything else is refused (R84). -/
def parseIndex (t : List Char) : Option Nat :=
  match parseUnsigned t with
  | some n => if n ≤ 63 then some n else none
  | none => none

/-- `val`: a signed decimal -32768 to 32767, or a hexadecimal 16-bit pattern 0x0000 to 0xFFFF; anything else is
refused (R84). -/
def parseValue (t : List Char) : Option Int :=
  match hexBody t with
  | some body =>
    match parseNumber 16 hexDigit body with
    | some n => if n ≤ 0xFFFF then some (BitVec.ofNat 16 n).toInt else none
    | none => none
  | none =>
    match parseSigned t with
    | some v => if -32768 ≤ v ∧ v ≤ 32767 then some v else none
    | none => none

/-- The operand of a pseudo-instruction: any integer (R85), a `0x...` literal as the unsigned number it spells
(DESIGN CHOICE, log 13). -/
def parseInteger (t : List Char) : Option Int :=
  match hexBody t with
  | some body => (parseNumber 16 hexDigit body).map fun n => (n : Int)
  | none => parseSigned t

/-- The operand of `.word`: a raw word `0x...` (R84); a number of more than 32 bits is refused (DESIGN CHOICE,
log 13). -/
def parseRawWord (t : List Char) : Option Word :=
  match hexBody t with
  | some body =>
    match parseNumber 16 hexDigit body with
    | some n => if n < 2 ^ 32 then some (BitVec.ofNat 32 n) else none
    | none => none
  | none => none

/-- Every text of a list read by one reader, or none. -/
def parseAll (read : List Char → Option Int) (ts : List (List Char)) : Option (List Int) :=
  match ts with
  | [] => some []
  | t :: rest =>
    match read t, parseAll read rest with
    | some v, some vs => some (v :: vs)
    | _, _ => none

/-- A line without operands. -/
def asmNoOperand (cmds : List Instr) (ops : List (List Char)) : Option (List Instr) :=
  match ops with
  | [] => some cmds
  | _ => none

/-- A line with one operand. -/
def asmOneOperand {α : Type} (read : List Char → Option α) (mk : α → List Instr) (ops : List (List Char)) :
    Option (List Instr) :=
  match ops with
  | [a] => (read a).map mk
  | _ => none

/-- A line with a channel operand and a value operand. -/
def asmTwoOperands (read : List Char → Option Int) (mk : Nat → Int → Instr) (ops : List (List Char)) :
    Option (List Instr) :=
  match ops with
  | [a, b] =>
    match parseIndex a, read b with
    | some ch, some v => some [mk ch v]
    | _, _ => none
  | _ => none

/-- The rows of R84 and R85: each mnemonic, in capitals, with the commands its operands spell. -/
def asmTable : List (String × (List (List Char) → Option (List Instr))) :=
  [ ("NOP", asmNoOperand [.nop]),
    ("CLEAR", asmNoOperand [.clear]),
    ("LOAD", asmTwoOperands parseValue .load),
    ("PUSH", asmOneOperand parseValue fun v => [.push v]),
    ("ENCODE", asmNoOperand [.encode]),
    ("XMIT", asmNoOperand [.xmit]),
    ("RDFB", asmOneOperand parseIndex fun k => [.rdfb k]),
    ("RDCH", asmOneOperand parseIndex fun k => [.rdch k]),
    ("RDSTAT", asmNoOperand [.rdstat]),
    ("RDERR", asmNoOperand [.rderr]),
    ("CLRSTAT", asmNoOperand [.clrstat]) ] ++
  [ ("FRAME", asmNoOperand pseudoFrame),
    ("LOADLIST", fun ops => (parseAll parseInteger ops).map pseudoLoadlist),
    ("PUSHI", asmOneOperand parseInteger fun x => [pseudoPushi x]),
    ("LOADI", asmTwoOperands parseInteger pseudoLoadi),
    ("SETALL", asmOneOperand parseInteger pseudoSetall) ]

/-- The commands that a mnemonic, in capitals, and its operands spell. -/
def assembleUpper (m : List Char) (ops : List (List Char)) : Option (List Instr) :=
  match asmTable.find? fun row => row.1.toList == m with
  | some row => row.2 ops
  | none => none

/-- The words that a mnemonic and its operands assemble to: mnemonics are case-insensitive, and only `.word` can
spell a word that is no command (R84). R84 says the former of mnemonics and writes the directive `.word`: that it may
be written in any case too, and that it takes exactly one operand, are the model's choices (DESIGN CHOICE, log 13). -/
def assemble (m : List Char) (ops : List (List Char)) : Option (List Word) :=
  if m.map Char.toUpper = ".WORD".toList then
    match ops with
    | [a] => (parseRawWord a).map fun w => [w]
    | _ => none
  else (assembleUpper (m.map Char.toUpper) ops).map fun cmds => cmds.map encode

/-- The words one line of assembly text stands for: a mnemonic, a blank, and operands between commas (R84). -/
def assembleLine (line : List Char) : Option (List Word) :=
  let t := trimBlanks line
  let m := t.takeWhile fun c => !isBlank c
  let operandText := trimBlanks (t.drop m.length)
  assemble m (if operandText = [] then [] else (splitCommas operandText).map trimBlanks)

end Sys2Proof.Machine
end

