-- ==== Sys2Proof/Machine/Platform.lean ====
section
/-! DEFINITION. Several block instances side by side (R69): each has its own state and port, and they share
nothing (log 16). -/

namespace Sys2Proof.Machine

/-- A system of block instances, by number. -/
abbrev System := List State

/-- One step of the instance with number `k`; a number without an instance leaves the system as it is. -/
def stepBlock (sys : System) (k : Nat) : Host.Outcome System Fault Refusal :=
  match sys[k]? with
  | none => .next sys
  | some s =>
    match step s with
    | .next t => .next (sys.set k t)
    | .fault r => .fault r
    | .refused r => .refused r

end Sys2Proof.Machine
end

