-- ==== Sys2Proof/Safety.lean ====
section
/-! DEFINITION. What counts as a good state and a safe run, in the terms the claims use: the check order of R79 as one
function of the word, the invariants of R26 and of the error registers, and what a run's inputs hold. -/

namespace Sys2Proof.Machine

/-- The error a word raises, by the checks of R79 in their order (R200, R203); none for a word that runs. It is a
function of the word alone (R78). -/
def errorOf (w : Word) : Option CmdError :=
  match opcodeOf (opField w) with
  | none => some .illegalOpcode
  | some o =>
    if w &&& o.zmask ≠ 0 then some .reservedField
    else if (o = .load ∨ o = .rdch) ∧ 24 ≤ idxField w then some .badIndex
    else if o = .rdfb ∧ 36 ≤ idxField w then some .badIndex
    else none

/-- R26: whenever DIRTY = 0, FB = encode(CH). -/
def Block.Fresh (b : Block) : Prop := b.dirty = false → b.fb = encodeFrame b.ch

/-- What the error registers hold together (R29 to R31, R200): with ERR = 0 CAUSE is NONE and ERRWORD is 0; with
ERR = 1 ERRWORD is a word that raises the error CAUSE names. -/
def Block.ErrorRecordOk (b : Block) : Prop :=
  (b.err = false → b.cause = .none ∧ b.errword = 0) ∧
  (b.err = true → ∃ e, errorOf b.errword = some e ∧ b.cause = errorCause e)

/-- Every block keeps both. -/
def State.Inv (s : State) : Prop := s.block.Fresh ∧ s.block.ErrorRecordOk

/-- `w0` is the only word of the command `i`, whose opcode is `op`: every other word with that opcode raises
RESERVED_FIELD when it is run (R75, R77). -/
def OnlyWord (i : Instr) (op : Nat) (w0 : Word) : Prop :=
  (∀ w, decode w = .command i ↔ w = w0) ∧
  ∀ (s : State) (w : Word), opField w = op → w ≠ w0 →
    step (s.offer w) = .next (s.raiseCmdError .reservedField w)

/-- The inputs hold neither a reset nor the command word `w`. -/
def NoResetNor (w : Word) (xs : List Input) : Prop := .reset ∉ xs ∧ .command w ∉ xs

/-- The inputs that hand a list of commands to the block, in order. -/
def commandInputs (cmds : List Instr) : List Input := cmds.map fun i => .command (encode i)

/-- `n` steps of the machine, the run of Host/Core.lean over `step`. -/
def runSteps (n : Nat) (s : State) : Host.Outcome State Fault Refusal :=
  match n with
  | 0 => .next s
  | k + 1 =>
    match step s with
    | .next t => runSteps k t
    | .fault r => .fault r
    | .refused r => .refused r

end Sys2Proof.Machine
end

