-- ==== Sys2Proof/Certificates/Slice0/Obligations.lean ====
section
/-! DEFINITION. The statements for the provers, one for each numbered rule or group of rules of spec/ that says what a
command or the block does. `s.offer w` is the state `s` with the word `w` as the command taken next; `exec i s` and
`step` are the model's. -/

open Sys2Proof Sys2Proof.Machine

/-! ## Encoding -/

/-- Words written out in the spec (R84, R102 to R105, R160 to R165, vectors V5 and T8) decode to what they stand for. -/
def Obligations.DecodesWordsOfTheSpec : Prop :=
  decode 0x00000000 = .command .nop ∧ decode 0x10000000 = .command .clear ∧
  decode 0x2140FFFB = .command (.load 5 (-5)) ∧ decode 0x26000001 = .command (.load 24 1) ∧
  decode 0x30001388 = .command (.push 5000) ∧ decode 0x40000000 = .command .encode ∧
  decode 0x50000000 = .command .xmit ∧ decode 0x68C00000 = .command (.rdfb 35) ∧
  decode 0x70400000 = .command (.rdch 1) ∧ decode 0x80000000 = .command .rdstat ∧
  decode 0x90000000 = .command .rderr ∧ decode 0xA0000000 = .command .clrstat ∧
  decode 0xB0000000 = .malformed .illegalOpcode ∧ decode 0xFFFFFFFF = .malformed .illegalOpcode ∧
  decode 0x2E010000 = .malformed .reservedField ∧ decode 0x30400000 = .malformed .reservedField

/-- Every well-formed command, with every operand at every value its field admits, comes back from its word. -/
def Obligations.DecodeOfEncodeIsIdentity : Prop :=
  ∀ i : Instr, i.WellFormed → decode (encode i) = .command i

/-- Every word the decoder accepts is the word of the well-formed command it gives: no bit of it is dropped. -/
def Obligations.EncodeOfDecodeIsIdentity : Prop :=
  ∀ (w : Word) (i : Instr), decode w = .command i → i.WellFormed ∧ encode i = w

/-- The operand fields as numbers: R72's `v = sext_32(w[15:0])`, a signed integer of 16 bits, and the unsigned OP and
IDX of R71. -/
def Obligations.OperandFieldsAsNumbers : Prop :=
  ∀ w : Word,
    opField w = w.toNat / 2 ^ 28 ∧ idxField w = w.toNat / 2 ^ 22 % 64 ∧
    valField w = (if w.toNat % 65536 < 32768 then (w.toNat % 65536 : Int) else (w.toNat % 65536 : Int) - 65536) ∧
    ValFits (valField w)

/-- The table of R75: each opcode's ZMASK, and a word selects its command exactly when `(w & fullmask) == match`. -/
def Obligations.WordSelectsCommandByMaskAndMatch : Prop :=
  ∀ row ∈ ([(.nop, 0x0FFFFFFF, 0x00000000, 0xFFFFFFFF), (.clear, 0x0FFFFFFF, 0x10000000, 0xFFFFFFFF),
      (.load, 0x003F0000, 0x20000000, 0xF03F0000), (.push, 0x0FFF0000, 0x30000000, 0xFFFF0000),
      (.encode, 0x0FFFFFFF, 0x40000000, 0xFFFFFFFF), (.xmit, 0x0FFFFFFF, 0x50000000, 0xFFFFFFFF),
      (.rdfb, 0x003FFFFF, 0x60000000, 0xF03FFFFF), (.rdch, 0x003FFFFF, 0x70000000, 0xF03FFFFF),
      (.rdstat, 0x0FFFFFFF, 0x80000000, 0xFFFFFFFF), (.rderr, 0x0FFFFFFF, 0x90000000, 0xFFFFFFFF),
      (.clrstat, 0x0FFFFFFF, 0xA0000000, 0xFFFFFFFF)] : List (Opcode × Word × Word × Word)),
    row.1.zmask = row.2.1 ∧
    ∀ w : Word, (∃ i, i.opcode = row.1 ∧ decode w = .command i) ↔ w &&& row.2.2.2 = row.2.2.1

/-- R76 and R77: a word with OP 0xB to 0xF raises ILLEGAL_OPCODE, a word with OP 0x0 to 0xA and a required-zero bit set
raises RESERVED_FIELD, and every other word is the word of exactly one command. -/
def Obligations.EveryWordIsACommandOrOneError : Prop :=
  ∀ w : Word,
    (0xB ≤ opField w → decode w = .malformed .illegalOpcode) ∧
    (∀ o, opcodeOf (opField w) = some o → w &&& o.zmask ≠ 0 → decode w = .malformed .reservedField) ∧
    (∀ o, opcodeOf (opField w) = some o → w &&& o.zmask = 0 → ∃! i : Instr, i.WellFormed ∧ encode i = w) ∧
    (0xB ≤ opField w ∨ ∃ o, opcodeOf (opField w) = some o) ∧
    ∀ (e : CmdError) (s : State), decode w = .malformed e →
      step (s.offer w) = .next (s.raiseCmdError e w) ∧ ¬ ∃ i : Instr, i.WellFormed ∧ encode i = w

/-- The link helpers lose no bit in either byte order (D30; the link's form is the model's choice, log 12): a word
comes back from its four bytes, and a command's bytes decode to it with the following bytes left over. -/
def Obligations.LinkBytesRoundTrip : Prop :=
  (∀ (order : ByteOrder) (w : Word), ∃ b0 b1 b2 b3,
    bytesOfWord order w = [b0, b1, b2, b3] ∧ wordOfBytes order b0 b1 b2 b3 = w) ∧
  ∀ (i : Instr) (rest : List Byte), i.WellFormed → decodeBytes (encodeBytes i ++ rest) = some (.command i, rest)

/-! ## The step -/

/-- A step whose next input is a word that decodes to a command is `exec` of that command, the word taken from the
inputs; so is a step after `withFetchWord`. -/
def Obligations.StepRunsTheDecodedCommand : Prop :=
  (∀ (s : State) (w : Word) (i : Instr), decode w = .command i → step (s.offer w) = exec i s) ∧
  ∀ (s : State) (nbits w : Nat) (i : Instr), decodeTableWord nbits w = some i →
    step (s.withFetchWord nbits w) = exec i s

/-- With nothing on the interface the block holds its state (R215; that this is a step is the model's choice,
log 3). -/
def Obligations.IdleStepHoldsTheState : Prop :=
  ∀ s : State, s.inputs = [] → step s = .next s

/-- R230: reset sets every element of the block to its reset value, returns no completion and emits no frame. -/
def Obligations.ResetSetsEveryElement : Prop :=
  ∀ s : State, step s.offerReset = .next { s with
    block := { ch := Vector.replicate 24 0, fb := Vector.replicate 36 0x00, wptr := 0, dirty := false, err := false,
               cause := .none, errword := 0x00000000, clampLo := false, clampHi := false, ovf := false } }

/-- R232: after reset FB = encode(CH), DIRTY = 0 and STATUS reads 0, and the invariants hold. -/
def Obligations.ResetStateIsFresh : Prop :=
  State.reset.block.fb = encodeFrame State.reset.block.ch ∧ State.reset.block.dirty = false ∧
  State.reset.block.status = 0x00000000 ∧ State.reset.Inv

/-- R79, R80, R201 and R203: the checks in their order, and what a word that fails one of them does: the first error
is recorded with its code and its word, the word completes `error`, and nothing else changes. -/
def Obligations.ErroneousWordRecordsTheFirstError : Prop :=
  ∀ (s : State) (w : Word),
    let raised := fun (e : CmdError) (c : Cause) => { s with
      block := if s.block.err then s.block else { s.block with err := true, cause := c, errword := w }
      completions := s.completions ++ [.error e] }
    (0xB ≤ opField w → step (s.offer w) = .next (raised .illegalOpcode .illegalOpcode)) ∧
    (∀ o, opcodeOf (opField w) = some o → w &&& o.zmask ≠ 0 →
      step (s.offer w) = .next (raised .reservedField .reservedField)) ∧
    (opField w = 0x2 → w &&& 0x003F0000 = 0 → 24 ≤ idxField w →
      step (s.offer w) = .next (raised .badIndex .badIndex)) ∧
    (opField w = 0x7 → w &&& 0x003FFFFF = 0 → 24 ≤ idxField w →
      step (s.offer w) = .next (raised .badIndex .badIndex)) ∧
    (opField w = 0x6 → w &&& 0x003FFFFF = 0 → 36 ≤ idxField w →
      step (s.offer w) = .next (raised .badIndex .badIndex))

/-- R200: the cause codes. -/
def Obligations.CauseCodes : Prop :=
  Cause.none.code = 0 ∧ (errorCause .illegalOpcode).code = 1 ∧ (errorCause .reservedField).code = 2 ∧
  (errorCause .badIndex).code = 3

/-- R202: with ERR = 0 an error is recorded; while ERR = 1 a later error changes neither ERR, CAUSE nor ERRWORD and
still completes with its own cause; and any run without CLRSTAT and reset keeps the first error's record. -/
def Obligations.FirstErrorIsKept : Prop :=
  (∀ (s : State) (w : Word) (e : CmdError), errorOf w = some e → ∃ t : State, step (s.offer w) = .next t ∧
    t.completions = s.completions ++ [.error e] ∧
    (s.block.err = false → t.block = { s.block with err := true, cause := errorCause e, errword := w }) ∧
    (s.block.err = true → t.block = s.block)) ∧
  ∀ (n : Nat) (s t : State), s.block.err = true → NoResetNor 0xA0000000 s.inputs → runSteps n s = .next t →
    t.block.err = true ∧ t.block.cause = s.block.cause ∧ t.block.errword = s.block.errword

/-- R83: each command's step returns exactly one completion, after every earlier one: `error(c)` for a word that fails
a check, `ok(d)` for the four reads, `ok` for the rest. No step stops the machine (R201), and only XMIT emits a
frame, one (R39). -/
def Obligations.OneCompletionPerCommand : Prop :=
  ∀ (s : State) (w : Word), ∃ (t : State) (c : Completion),
    step (s.offer w) = .next t ∧ t.completions = s.completions ++ [c] ∧ t.inputs = s.inputs ∧
    (∀ e, errorOf w = some e → c = .error e) ∧
    (errorOf w = none → 0x6 ≤ opField w → opField w ≤ 0x9 → ∃ d, c = .okData d) ∧
    (errorOf w = none → opField w < 0x6 ∨ opField w = 0xA → c = .ok) ∧
    (w = 0x50000000 → ∃ f, t.frames = s.frames ++ [f]) ∧
    (w ≠ 0x50000000 → t.frames = s.frames)

/-- Commands take effect in the order they are issued, and a step never looks at a later one (R63, R82): running the
first inputs gives the same result whether or not more inputs wait behind them. -/
def Obligations.StepsNeverLookAhead : Prop :=
  ∀ (n : Nat) (s t : State) (xs later : List Input), n ≤ xs.length →
    runSteps n { s with inputs := xs } = .next t →
    runSteps n { s with inputs := xs ++ later } = .next { t with inputs := t.inputs ++ later } ∧
    t.inputs = xs.drop n

/-- R81: the host and the platform reach the block only through the inputs (that the inputs stand in a list of State is
the model's choice, log 1): issuing a command or asserting reset changes no element of the block, no completion and no
frame, it is taken after every earlier input, and the step that takes an earlier input is the same with or without
it. -/
def Obligations.HostReachesTheBlockOnlyThroughInputs : Prop :=
  ∀ (s : State) (w : Word),
    (s.issue w).block = s.block ∧ (s.issue w).completions = s.completions ∧ (s.issue w).frames = s.frames ∧
    (s.issue w).inputs = s.inputs ++ [.command w] ∧
    s.assertReset.block = s.block ∧ s.assertReset.completions = s.completions ∧ s.assertReset.frames = s.frames ∧
    s.assertReset.inputs = s.inputs ++ [.reset] ∧
    (∀ x ∈ s.inputs.head?,
      step (s.issue w) = (match step s with
        | .next t => .next (t.issue w)
        | .fault r => .fault r
        | .refused r => .refused r) ∧
      step s.assertReset = (match step s with
        | .next t => .next t.assertReset
        | .fault r => .fault r
        | .refused r => .refused r))

/-! ## The commands -/

/-- R102, NOP: its one word, and no effect but the completion. -/
def Obligations.NopChangesNothing : Prop :=
  OnlyWord .nop 0x0 0x00000000 ∧
  ∀ s : State, exec .nop s = .next { s with completions := s.completions ++ [.ok] }

/-- R103, CLEAR: its one word, every channel 0, WPTR 0, DIRTY 1, and nothing else. -/
def Obligations.ClearZeroesTheChannels : Prop :=
  OnlyWord .clear 0x1 0x10000000 ∧
  ∀ s : State, exec .clear s = .next { s with
    block := { s.block with ch := Vector.replicate 24 0, wptr := 0, dirty := true }
    completions := s.completions ++ [.ok] }

/-- R104, LOAD: its words, and the channel, clamp flags and DIRTY it writes, every other channel and field kept; an
index of 24 to 63 raises BAD_INDEX instead. -/
def Obligations.LoadWritesOneChannel : Prop :=
  (∀ (w : Word) (ch : Nat) (v : Int), decode w = .command (.load ch v) ↔
    opField w = 0x2 ∧ w &&& 0x003F0000 = 0 ∧ ch = idxField w ∧ v = valField w) ∧
  (∀ (ch : Nat) (v : Int), IdxFits ch → ValFits v →
    encode (.load ch v) = 0x20000000 ||| BitVec.ofNat 32 ch <<< 22 ||| (BitVec.ofInt 32 v &&& 0xFFFF)) ∧
  (∀ (s : State) (w : Word), opField w = 0x2 → w &&& 0x003F0000 ≠ 0 →
    step (s.offer w) = .next (s.raiseCmdError .reservedField w)) ∧
  (∀ (s : State) (ch : Nat) (v : Int) (h : ch < 24), ∃ t : State, exec (.load ch v) s = .next t ∧
    (t.block.ch[ch].toNat : Int) = max 0 (min v 4095) ∧
    (∀ (k : Nat) (_ : k < 24), k ≠ ch → t.block.ch[k] = s.block.ch[k]) ∧
    t = { s with
      block := { s.block with
        ch := t.block.ch, dirty := true
        clampLo := s.block.clampLo || decide (v < 0), clampHi := s.block.clampHi || decide (4095 < v) }
      completions := s.completions ++ [.ok] }) ∧
  (∀ (s : State) (ch : Nat) (v : Int), 24 ≤ ch → IdxFits ch → ValFits v →
    exec (.load ch v) s = .next (s.raiseCmdError .badIndex (encode (.load ch v))))

/-- R105, PUSH: its words; with WPTR below 24 it writes channel WPTR and moves WPTR on, every other channel and field
kept; with WPTR = 24 it only sets OVF. Both complete `ok`. -/
def Obligations.PushWritesTheNextChannel : Prop :=
  (∀ (w : Word) (v : Int), decode w = .command (.push v) ↔
    opField w = 0x3 ∧ w &&& 0x0FFF0000 = 0 ∧ v = valField w) ∧
  (∀ v : Int, ValFits v → encode (.push v) = 0x30000000 ||| (BitVec.ofInt 32 v &&& 0xFFFF)) ∧
  (∀ (s : State) (w : Word), opField w = 0x3 → w &&& 0x0FFF0000 ≠ 0 →
    step (s.offer w) = .next (s.raiseCmdError .reservedField w)) ∧
  (∀ (s : State) (v : Int) (h : s.block.wptr.val < 24), ∃ t : State, exec (.push v) s = .next t ∧
    (t.block.ch[s.block.wptr.val].toNat : Int) = max 0 (min v 4095) ∧
    (∀ (k : Nat) (_ : k < 24), k ≠ s.block.wptr.val → t.block.ch[k] = s.block.ch[k]) ∧
    t.block.wptr.val = s.block.wptr.val + 1 ∧
    t = { s with
      block := { s.block with
        ch := t.block.ch, wptr := t.block.wptr, dirty := true
        clampLo := s.block.clampLo || decide (v < 0), clampHi := s.block.clampHi || decide (4095 < v) }
      completions := s.completions ++ [.ok] }) ∧
  (∀ (s : State) (v : Int), s.block.wptr.val = 24 →
    exec (.push v) s = .next { s with
      block := { s.block with ovf := true }, completions := s.completions ++ [.ok] })

/-- R136, ENCODE: its one word; FB becomes the frame of the channels, DIRTY 0, and nothing else changes. -/
def Obligations.EncodeLatchesTheFrame : Prop :=
  OnlyWord .encode 0x4 0x40000000 ∧
  ∀ s : State, exec .encode s = .next { s with
    block := { s.block with fb := encodeFrame s.block.ch, dirty := false }
    completions := s.completions ++ [.ok] }

/-- R160, XMIT: its one word; one frame goes out, FB[35] first and FB[0] last, whose bits sent most significant first
are the stream S(0..287); no element of the block changes. -/
def Obligations.XmitEmitsTheLatchedFrame : Prop :=
  OnlyWord .xmit 0x5 0x50000000 ∧
  ∀ s : State, ∃ f : TxFrame,
    exec .xmit s = .next { s with frames := s.frames ++ [f], completions := s.completions ++ [.ok] } ∧
    (∀ (j : Nat) (_ : j < 36), f[j] = s.block.fb[35 - j]) ∧
    (∀ (n : Nat) (h : n < 288), txBit f n h = streamBit s.block.fb n)

/-- R161, RDFB: its words; the latched byte zero-extended, no state written; an index of 36 to 63 raises
BAD_INDEX. -/
def Obligations.RdfbReadsOneFrameByte : Prop :=
  (∀ (w : Word) (k : Nat), decode w = .command (.rdfb k) ↔
    opField w = 0x6 ∧ w &&& 0x003FFFFF = 0 ∧ k = idxField w) ∧
  (∀ k : Nat, IdxFits k → encode (.rdfb k) = 0x60000000 ||| BitVec.ofNat 32 k <<< 22) ∧
  (∀ (s : State) (w : Word), opField w = 0x6 → w &&& 0x003FFFFF ≠ 0 →
    step (s.offer w) = .next (s.raiseCmdError .reservedField w)) ∧
  (∀ (s : State) (k : Nat) (_ : k < 36), ∃ d : Word,
    exec (.rdfb k) s = .next { s with completions := s.completions ++ [.okData d] } ∧
    d.toNat = s.block.fb[k].toNat) ∧
  (∀ (s : State) (k : Nat), 36 ≤ k → IdxFits k →
    exec (.rdfb k) s = .next (s.raiseCmdError .badIndex (encode (.rdfb k))))

/-- R162, RDCH: its words; the channel zero-extended, no state written; an index of 24 to 63 raises BAD_INDEX. -/
def Obligations.RdchReadsOneChannel : Prop :=
  (∀ (w : Word) (k : Nat), decode w = .command (.rdch k) ↔
    opField w = 0x7 ∧ w &&& 0x003FFFFF = 0 ∧ k = idxField w) ∧
  (∀ k : Nat, IdxFits k → encode (.rdch k) = 0x70000000 ||| BitVec.ofNat 32 k <<< 22) ∧
  (∀ (s : State) (w : Word), opField w = 0x7 → w &&& 0x003FFFFF ≠ 0 →
    step (s.offer w) = .next (s.raiseCmdError .reservedField w)) ∧
  (∀ (s : State) (k : Nat) (_ : k < 24), ∃ d : Word,
    exec (.rdch k) s = .next { s with completions := s.completions ++ [.okData d] } ∧
    d.toNat = s.block.ch[k].toNat ∧ d.toNat ≤ 4095) ∧
  (∀ (s : State) (k : Nat), 24 ≤ k → IdxFits k →
    exec (.rdch k) s = .next (s.raiseCmdError .badIndex (encode (.rdch k))))

/-- R163, RDSTAT: its one word; STATUS, nothing written. -/
def Obligations.RdstatReadsStatus : Prop :=
  OnlyWord .rdstat 0x8 0x80000000 ∧
  ∀ s : State, exec .rdstat s = .next { s with completions := s.completions ++ [.okData s.block.status] }

/-- R164, RDERR: its one word; ERRWORD, nothing written, and 0 while ERR = 0 in every state whose error registers
agree. -/
def Obligations.RderrReadsTheFirstErrorWord : Prop :=
  OnlyWord .rderr 0x9 0x90000000 ∧
  ∀ s : State, ∃ d : Word, exec .rderr s = .next { s with completions := s.completions ++ [.okData d] } ∧
    d = s.block.errword ∧ (s.block.ErrorRecordOk → s.block.err = false → d = 0x00000000)

/-- R165, CLRSTAT: its one word; the six sticky fields 0 and nothing else; a malformed CLRSTAT sets ERR instead. -/
def Obligations.ClrstatClearsTheStickyStatus : Prop :=
  OnlyWord .clrstat 0xA 0xA0000000 ∧
  (∀ s : State, exec .clrstat s = .next { s with
    block := { s.block with
      err := false, cause := .none, errword := 0, clampLo := false, clampHi := false, ovf := false }
    completions := s.completions ++ [.ok] }) ∧
  ∀ (s : State) (w : Word), opField w = 0xA → w ≠ 0xA0000000 →
    ∃ t : State, step (s.offer w) = .next t ∧ t.block.err = true

/-! ## Clamping, flags and the input list -/

/-- R100: clamp12 saturates to [0, 4095] for a signed integer of any width. -/
def Obligations.ClampSaturates : Prop :=
  ∀ v : Int, ((clamp12 v).toNat : Int) = if v < 0 then 0 else if v > 4095 then 4095 else v

/-- R101: note sets one flag for a value below 0 or above 4095, and changes nothing else. -/
def Obligations.NoteSetsTheClampFlag : Prop :=
  ∀ (b : Block) (v : Int),
    (v < 0 → b.note v = { b with clampLo := true }) ∧ (v > 4095 → b.note v = { b with clampHi := true }) ∧
    (0 ≤ v → v ≤ 4095 → b.note v = b)

/-- R106: saturating an integer of any width to 16 bits loses nothing: the same channel value, the same flags. -/
def Obligations.SaturatedIntegersLoseNothing : Prop :=
  ∀ x : Int, ValFits (sat16 x) ∧ clamp12 (sat16 x) = clamp12 x ∧ ∀ b : Block, b.note (sat16 x) = b.note x

/-- R107: CLEAR and then PUSH of v0 to v(n-1), for any n, from any state: the channels, WPTR and OVF. -/
def Obligations.ClearThenPushesFillInOrder : Prop :=
  ∀ (s : State) (vs : List Int), (∀ v ∈ vs, ValFits v) → ∃ t : State,
    runSteps (vs.length + 1) { s with inputs := commandInputs (.clear :: vs.map .push) ++ s.inputs } = .next t ∧
    t.inputs = s.inputs ∧
    (∀ (k : Nat) (_ : k < 24), t.block.ch[k] = (vs[k]?.map clamp12).getD 0) ∧
    t.block.wptr.val = min vs.length 24 ∧
    (t.block.ovf = true ↔ 24 < vs.length ∨ s.block.ovf = true)

/-- R35: the layout of STATUS, reserved bits 0, and its value after reset. -/
def Obligations.StatusLayout : Prop :=
  Block.reset.status = 0x00000000 ∧
  ∀ b : Block,
    b.status.getLsbD 0 = b.dirty ∧ b.status.getLsbD 1 = b.err ∧ b.status.getLsbD 2 = b.clampLo ∧
    b.status.getLsbD 3 = b.clampHi ∧ b.status.getLsbD 4 = b.ovf ∧ b.status.extractLsb' 5 3 = 0 ∧
    b.status.extractLsb' 8 4 = b.cause.code ∧ b.status.extractLsb' 12 4 = 0 ∧
    (b.status.extractLsb' 16 5).toNat = b.wptr.val ∧ b.status.extractLsb' 21 11 = 0

/-! ## The frame -/

/-- R130 to R133: pair p's three bytes from its two channels, and its window; the windows cover bytes 0 to 35 exactly
once. -/
def Obligations.PairBytesByTheFormula : Prop :=
  (∀ k, k < 36 → ∃! p, p < 12 ∧ (k = (window p).1 ∨ k = (window p).2.1 ∨ k = (window p).2.2)) ∧
  ∀ (chs : Channels) (p : Nat) (_ : p < 12),
    window p = (35 - 3 * p, 34 - 3 * p, 33 - 3 * p) ∧
    (encodeFrame chs)[35 - 3 * p].toNat = chs[23 - 2 * p].toNat % 256 ∧
    (encodeFrame chs)[34 - 3 * p].toNat = chs[23 - 2 * p].toNat / 256 * 16 + chs[22 - 2 * p].toNat % 16 ∧
    (encodeFrame chs)[33 - 3 * p].toNat = chs[22 - 2 * p].toNat / 16

/-- R134: the same function in closed form, by the ascending pair index. -/
def Obligations.FrameInClosedForm : Prop :=
  ∀ (chs : Channels) (q : Nat) (_ : q < 12),
    (encodeFrame chs)[3 * q + 2] = chs[2 * q + 1].extractLsb' 0 8 ∧
    (encodeFrame chs)[3 * q + 1] = chs[2 * q + 1].extractLsb' 8 4 ++ chs[2 * q].extractLsb' 0 4 ∧
    (encodeFrame chs)[3 * q] = chs[2 * q].extractLsb' 4 8

/-- R135: the byte formula reads only bits 11 to 0 of its inputs, whatever width they have. -/
def Obligations.FormulaReadsTwelveBits : Prop :=
  ∀ first second : Nat,
    byteHi first = byteHi (first % 4096) ∧ byteMid first second = byteMid (first % 4096) (second % 4096) ∧
    byteLo second = byteLo (second % 4096)

/-- R137: changing channel k leaves every frame bit outside its window unchanged. -/
def Obligations.ChannelReachesOnlyItsWindow : Prop :=
  ∀ (chs : Channels) (k : Nat) (hk : k < 24) (v : ChanVal) (j : Nat) (_ : j < 36) (bit : Nat), bit < 8 →
    ¬ (k % 2 = 1 ∧ (j = 3 * (k / 2) + 2 ∨ j = 3 * (k / 2) + 1 ∧ 4 ≤ bit)) →
    ¬ (k % 2 = 0 ∧ (j = 3 * (k / 2) ∨ j = 3 * (k / 2) + 1 ∧ bit < 4)) →
    (encodeFrame (chs.set k v hk))[j].getLsbD bit = (encodeFrame chs)[j].getLsbD bit

/-- R138: encode is a bijection, and its inverse is the one the rule gives. -/
def Obligations.EncodeFrameIsABijection : Prop :=
  Function.Bijective encodeFrame ∧
  (∀ chs : Channels, decodeFrame (encodeFrame chs) = chs) ∧ (∀ fb : Frame, encodeFrame (decodeFrame fb) = fb) ∧
  ∀ (fb : Frame) (q : Nat) (_ : q < 12),
    (decodeFrame fb)[2 * q + 1].toNat = fb[3 * q + 1].toNat / 16 * 256 + fb[3 * q + 2].toNat ∧
    (decodeFrame fb)[2 * q].toNat = fb[3 * q].toNat * 16 + fb[3 * q + 1].toNat % 16

/-- R139: where each channel bit falls in the transmitted stream. -/
def Obligations.StreamPositionsOfAPair : Prop :=
  ∀ (chs : Channels) (p : Nat) (_ : p < 12) (i : Nat),
    (i < 8 → streamBit (encodeFrame chs) (24 * p + i) = chs[23 - 2 * p].getLsbD (7 - i)) ∧
    (i < 4 → streamBit (encodeFrame chs) (24 * p + 8 + i) = chs[23 - 2 * p].getLsbD (11 - i)) ∧
    (i < 4 → streamBit (encodeFrame chs) (24 * p + 12 + i) = chs[22 - 2 * p].getLsbD (3 - i)) ∧
    (i < 8 → streamBit (encodeFrame chs) (24 * p + 16 + i) = chs[22 - 2 * p].getLsbD (11 - i))

/-- R141: the frames of 24 zeros and of 24 times 4095. -/
def Obligations.ExtremeFrames : Prop :=
  encodeFrame (Vector.replicate 24 0) = Vector.replicate 36 0x00 ∧
  encodeFrame (Vector.replicate 24 4095) = Vector.replicate 36 0xFF

/-! ## The whole machine -/

/-- R26: FB = encode(CH) whenever DIRTY = 0: this holds at reset, and every step from any state keeps it. -/
def Obligations.StepKeepsTheFrameFresh : Prop :=
  State.reset.block.Fresh ∧
  ∀ s t : State, s.block.Fresh → step s = .next t → t.block.Fresh

/-- R29 to R31, R200, R202: every step keeps ERR, CAUSE and ERRWORD in agreement: with ERR = 0 nothing is recorded,
with ERR = 1 ERRWORD is a word that raises the error CAUSE names. -/
def Obligations.StepKeepsTheErrorRecord : Prop :=
  ∀ s t : State, s.block.ErrorRecordOk → step s = .next t → t.block.ErrorRecordOk

/-- R40: the block has no hidden state: two blocks that every read command answers alike are the same block. -/
def Obligations.EveryElementCanBeReadBack : Prop :=
  ∀ s s' : State, s.completions = s'.completions →
    (∀ i : Instr, ((∃ k, k < 24 ∧ i = .rdch k) ∨ (∃ k, k < 36 ∧ i = .rdfb k) ∨ i = .rdstat ∨ i = .rderr) →
      ∀ t t' : State, exec i s = .next t → exec i s' = .next t' → t.completions = t'.completions) →
    s.block = s'.block

/-- Which words change which element (R22, R25, R27 to R34, R77): after any word each element holds the value that the
rule naming its writers gives, and what it held before when the word is no writer of it. A word that fails a check
writes no element but the error record, and an ignored PUSH only OVF. -/
def Obligations.ElementsChangeOnlyByTheirWriters : Prop :=
  ∀ (s t : State) (w : Word), step (s.offer w) = .next t →
    let loads : Prop := errorOf w = none ∧ opField w = 0x2
    let pushes : Prop := errorOf w = none ∧ opField w = 0x3 ∧ s.block.wptr.val < 24
    (∀ (k : Nat) (_ : k < 24), t.block.ch[k] =
      if w = 0x10000000 then 0
      else if loads ∧ k = idxField w ∨ pushes ∧ k = s.block.wptr.val then clamp12 (valField w)
      else s.block.ch[k]) ∧
    (t.block.fb = if w = 0x40000000 then encodeFrame s.block.ch else s.block.fb) ∧
    (t.block.wptr.val =
      if w = 0x10000000 then 0 else if pushes then s.block.wptr.val + 1 else s.block.wptr.val) ∧
    (t.block.dirty =
      if w = 0x40000000 then false else if w = 0x10000000 ∨ loads ∨ pushes then true else s.block.dirty) ∧
    (t.block.err = if w = 0xA0000000 then false else if errorOf w = none then s.block.err else true) ∧
    (t.block.cause =
      if w = 0xA0000000 then .none
      else if s.block.err = true then s.block.cause
      else ((errorOf w).map errorCause).getD s.block.cause) ∧
    (t.block.errword =
      if w = 0xA0000000 then 0x00000000
      else if s.block.err = false ∧ errorOf w ≠ none then w else s.block.errword) ∧
    (t.block.clampLo =
      if w = 0xA0000000 then false else if (loads ∨ pushes) ∧ valField w < 0 then true else s.block.clampLo) ∧
    (t.block.clampHi =
      if w = 0xA0000000 then false else if (loads ∨ pushes) ∧ 4095 < valField w then true else s.block.clampHi) ∧
    (t.block.ovf =
      if w = 0xA0000000 then false
      else if errorOf w = none ∧ opField w = 0x3 ∧ s.block.wptr.val = 24 then true else s.block.ovf)

/-- R60: reads and NOP change no state of the block and answer the same when repeated; ENCODE, CLEAR, CLRSTAT and LOAD
are idempotent; PUSH is not, because WPTR advances; each XMIT emits one more frame, the same one. -/
def Obligations.RepeatedCommands : Prop :=
  (∀ (s t u : State) (i : Instr),
    (i = .nop ∨ i = .rdstat ∨ i = .rderr ∨ (∃ k, k < 36 ∧ i = .rdfb k) ∨ (∃ k, k < 24 ∧ i = .rdch k)) →
    exec i s = .next t → exec i t = .next u →
    t.block = s.block ∧ t.frames = s.frames ∧ ∃ c, t.completions = s.completions ++ [c] ∧
      u.completions = t.completions ++ [c]) ∧
  (∀ (s t u : State) (i : Instr), (i = .encode ∨ i = .clear ∨ i = .clrstat ∨ ∃ ch v, i = .load ch v) →
    exec i s = .next t → exec i t = .next u → u.block = t.block) ∧
  (∀ (s t u : State) (v : Int), s.block.wptr.val < 23 → exec (.push v) s = .next t → exec (.push v) t = .next u →
    u.block ≠ t.block) ∧
  (∀ s t u : State, exec .xmit s = .next t → exec .xmit t = .next u →
    t.block = s.block ∧ ∃ f, t.frames = s.frames ++ [f] ∧ u.frames = t.frames ++ [f])

/-- R38: DIRTY, ERR, CLAMP_LO, CLAMP_HI and OVF (and CAUSE, ERRWORD) do not affect how a command executes: from two
states that agree on CH, FB and WPTR, a command leaves CH, FB and WPTR alike, emits the same frames, and completes
alike unless it reads the status. -/
def Obligations.FlagsDoNotAffectExecution : Prop :=
  ∀ (i : Instr) (s s' t t' : State),
    s.block.ch = s'.block.ch → s.block.fb = s'.block.fb → s.block.wptr = s'.block.wptr →
    exec i s = .next t → exec i s' = .next t' →
    t.block.ch = t'.block.ch ∧ t.block.fb = t'.block.fb ∧ t.block.wptr = t'.block.wptr ∧
    (∃ fs, t.frames = s.frames ++ fs ∧ t'.frames = s'.frames ++ fs) ∧
    (i ≠ .rdstat → i ≠ .rderr → ∃ c, t.completions = s.completions ++ [c] ∧ t'.completions = s'.completions ++ [c])

/-- R235: in a run without ENCODE and reset every frame XMIT emits is the frame latched before it, whatever is written
to the channels meanwhile. -/
def Obligations.WithoutEncodeTheOldFrameIsSent : Prop :=
  ∀ (n : Nat) (s t : State), NoResetNor 0x40000000 s.inputs → runSteps n s = .next t →
    t.block.fb = s.block.fb ∧ ∃ m, t.frames = s.frames ++ List.replicate m (txOrder s.block.fb)

/-- The reference lifecycle (R234, with R85, R107, R136, R138, R160): LOADLIST of any integers and then FRAME, from any
state, emits exactly one frame, and decoding it gives the clamped list, channels past its end 0. -/
def Obligations.LoadListThenFrameSendsTheClampedList : Prop :=
  ∀ (s : State) (xs : List Int), ∃ t : State,
    runSteps (xs.length + 3)
      { s with inputs := commandInputs (pseudoLoadlist xs ++ pseudoFrame) ++ s.inputs } = .next t ∧
    t.inputs = s.inputs ∧ t.frames = s.frames ++ [txOrder t.block.fb] ∧ t.block.dirty = false ∧
    ∀ (k : Nat) (_ : k < 24), (decodeFrame t.block.fb)[k] = (xs[k]?.map clamp12).getD 0

/-- SETALL (R85) from any state: 24 steps leave every channel at the clamped value and write no other register file. -/
def Obligations.SetallSetsEveryChannel : Prop :=
  ∀ (s : State) (x : Int), ∃ t : State,
    runSteps 24 { s with inputs := commandInputs (pseudoSetall x) ++ s.inputs } = .next t ∧
    t.inputs = s.inputs ∧ t.block.ch = Vector.replicate 24 (clamp12 x) ∧ t.block.fb = s.block.fb ∧
    t.block.wptr = s.block.wptr

/-! ## The assembler, and several blocks -/

/-- The table of R84: each mnemonic with operands that fit assembles to its word, in any case of its letters. The
clause on case is over every first word of a line, so it says of the directive `.word` too that any case is accepted:
of `.word` that is the model's choice (log 13), R84 says it of mnemonics only. -/
def Obligations.AssemblerSyntaxTable : Prop :=
  (∀ (m : List Char) (ops : List (List Char)), assemble (m.map Char.toUpper) ops = assemble m ops) ∧
  assemble "NOP".toList [] = some [0x00000000] ∧ assemble "CLEAR".toList [] = some [0x10000000] ∧
  assemble "ENCODE".toList [] = some [0x40000000] ∧ assemble "XMIT".toList [] = some [0x50000000] ∧
  assemble "RDSTAT".toList [] = some [0x80000000] ∧ assemble "RDERR".toList [] = some [0x90000000] ∧
  assemble "CLRSTAT".toList [] = some [0xA0000000] ∧
  ∀ (a b : List Char) (k : Nat) (v : Int), parseIndex a = some k → parseValue b = some v →
    IdxFits k ∧ ValFits v ∧
    assemble "LOAD".toList [a, b] = some [0x20000000 ||| BitVec.ofNat 32 k <<< 22 ||| (BitVec.ofInt 32 v &&& 0xFFFF)] ∧
    assemble "PUSH".toList [b] = some [0x30000000 ||| (BitVec.ofInt 32 v &&& 0xFFFF)] ∧
    assemble "RDFB".toList [a] = some [0x60000000 ||| BitVec.ofNat 32 k <<< 22] ∧
    assemble "RDCH".toList [a] = some [0x70000000 ||| BitVec.ofNat 32 k <<< 22]

/-- R84: but for a raw `.word`, everything that assembles is a list of words of well-formed commands: no syntax sets
RSV or a field its opcode does not use. That `.word` in any case of its letters is the directive is the model's choice
(log 13). -/
def Obligations.AssemblerSpellsOnlyCommands : Prop :=
  ∀ (m : List Char) (ops : List (List Char)) (ws : List Word), m.map Char.toUpper ≠ ".WORD".toList →
    assemble m ops = some ws → ∀ w ∈ ws, ∃ i : Instr, i.WellFormed ∧ decode w = .command i

/-- R85: the expansions of the pseudo-instructions, from their text; how an integer's text reads (`parseInteger`) is the
model's choice (log 13). -/
def Obligations.PseudoInstructionExpansions : Prop :=
  assemble "FRAME".toList [] = some [0x40000000, 0x50000000] ∧
  (∀ (a b : List Char) (k : Nat) (x : Int), parseIndex a = some k → parseInteger b = some x →
    assemble "PUSHI".toList [b] = some [encode (.push (min (max x (-32768)) 32767))] ∧
    assemble "LOADI".toList [a, b] = some [encode (.load k (min (max x (-32768)) 32767))] ∧
    assemble "SETALL".toList [b] =
      some ((List.range 24).map fun j => encode (.load j (min (max x (-32768)) 32767)))) ∧
  ∀ (ops : List (List Char)) (xs : List Int), ops.map parseInteger = xs.map some →
    assemble "LOADLIST".toList ops =
      some (0x10000000 :: xs.map fun x => encode (.push (min (max x (-32768)) 32767)))

/-- R69: a step of one block instance is its own step and leaves every other instance as it was. -/
def Obligations.InstancesShareNothing : Prop :=
  ∀ (sys : System) (k : Nat), ∃ sys' : System, stepBlock sys k = .next sys' ∧ sys'.length = sys.length ∧
    (∀ j, j ≠ k → sys'[j]? = sys[j]?) ∧
    ∀ s, sys[k]? = some s → ∃ t, step s = .next t ∧ sys'[k]? = some t

/-- What a number's text reads as. R84's: an index of 0 to 63, a value that is a signed decimal of -32768 to 32767 or a
16-bit pattern `0x0000` to `0xFFFF`, and the refusal of an operand that does not fit its field. The model's choices
(log 13), none of them a word of R84 or R85: leading zeros, `-0`, the letters of a `0x` literal in either case, an index
written as a `0x` literal, how the integer of a pseudo-instruction is written (a signed decimal, or a `0x` literal as
the unsigned number it spells), and the refusal of a raw word of more than 32 bits. -/
def Obligations.AssemblerReadsLiterals : Prop :=
  ∀ (n zeros : Nat) (hex : List Char),
    let dec := List.replicate zeros '0' ++ Nat.toDigits 10 n
    hex.map Char.toUpper = "0X".toList ++ List.replicate zeros '0' ++ (Nat.toDigits 16 n).map Char.toUpper →
    parseIndex dec = (if n ≤ 63 then some n else none) ∧
    parseIndex hex = (if n ≤ 63 then some n else none) ∧
    parseValue dec = (if n ≤ 32767 then some (n : Int) else none) ∧
    parseValue ('-' :: dec) = (if n ≤ 32768 then some (-(n : Int)) else none) ∧
    parseValue hex = (if n < 0x8000 then some (n : Int) else if n < 0x10000 then some ((n : Int) - 0x10000) else none) ∧
    parseInteger dec = some (n : Int) ∧ parseInteger ('-' :: dec) = some (-(n : Int)) ∧
    parseInteger hex = some (n : Int) ∧
    parseRawWord hex = (if n < 2 ^ 32 then some (BitVec.ofNat 32 n) else none)

/-- How a line is read (R84): a mnemonic, and after blanks its operands between commas; that a blank ends the
mnemonic, and that blanks may stand at both ends and around each operand, is the model's choice (log 13). `pieces`
lists the operands, each with the blanks before and after it. -/
def Obligations.AssemblerReadsLines : Prop :=
  ∀ (before m gap : List Char) (pieces : List (List Char × List Char × List Char)),
    before.all isBlank = true → gap.all isBlank = true → m ≠ [] → (∀ x ∈ m, isBlank x = false) →
    (pieces ≠ [] → gap ≠ []) →
    (∀ p ∈ pieces, p.1.all isBlank = true ∧ p.2.2.all isBlank = true ∧ p.2.1 ≠ [] ∧
      ∀ x ∈ p.2.1, isBlank x = false ∧ x ≠ ',') →
    assembleLine (before ++ m ++ gap ++ List.intercalate [','] (pieces.map fun p => p.1 ++ p.2.1 ++ p.2.2)) =
      assemble m (pieces.map fun p => p.2.1)

/-- The raw-word directive of R84, `.word 0x...`: the word itself, whatever it spells. The model's choices (log 13),
none of them a word of R84: that a number of more than 32 bits is refused, that any count of operands but one is refused,
and that `.word` may be written in any case of its letters. -/
def Obligations.RawWordDirective : Prop :=
  ∀ m : List Char, m.map Char.toUpper = ".WORD".toList →
    (∀ n : Nat, assemble m ["0x".toList ++ Nat.toDigits 16 n] =
      if n < 2 ^ 32 then some [BitVec.ofNat 32 n] else none) ∧
    ∀ ops : List (List Char), ops.length ≠ 1 → assemble m ops = none

/-- LOAD, RDFB and RDCH of any index past the range, also of operands past their fields, which no word decodes to:
BAD_INDEX, with the word of the command whose operands are cut to their fields (the model's choice, log 11). -/
def Obligations.IllFormedIndexRaisesBadIndex : Prop :=
  ∀ (s : State) (k : Nat) (v : Int),
    (24 ≤ k → exec (.load k v) s =
      .next (s.raiseCmdError .badIndex (encode (.load (k % 64) (BitVec.ofInt 16 v).toInt)))) ∧
    (36 ≤ k → exec (.rdfb k) s = .next (s.raiseCmdError .badIndex (encode (.rdfb (k % 64))))) ∧
    (24 ≤ k → exec (.rdch k) s = .next (s.raiseCmdError .badIndex (encode (.rdch (k % 64)))))
end

