-- ==== Sys2Proof/Laws/Assembler.lean ====
section
/-! SUPPORT. The assembler: what its readers accept fits its field, what a literal reads as, how blanks and commas cut a
line, and which row of the table assembles a mnemonic. -/

namespace Sys2Proof.Machine

/-- An index that is read fits IDX (R84). -/
theorem parseIndex_fits {t : List Char} {k : Nat} (h : parseIndex t = some k) : IdxFits k := by
  unfold parseIndex at h
  split at h
  · split at h
    · cases h
      assumption
    · cases h
  · cases h

/-- A value that is read fits VAL (R84). -/
theorem parseValue_fits {t : List Char} {v : Int} (h : parseValue t = some v) : ValFits v := by
  unfold parseValue at h
  split at h
  · split at h
    · split at h
      · rename_i n _ hn
        cases h
        have h1 := BitVec.toInt_lt (x := BitVec.ofNat 16 n)
        have h2 := BitVec.le_toInt (x := BitVec.ofNat 16 n)
        constructor <;> omega
      · cases h
    · cases h
  · split at h
    · split at h
      · cases h
        assumption
      · cases h
    · cases h

/-! ## Letters of either case -/

/-- A character is its own capital, or a small letter. -/
theorem toUpper_cases (c : Char) : c.toUpper = c ∨ ∃ n : Nat, 97 ≤ n ∧ n ≤ 122 ∧ c = Char.ofNat n := by
  by_cases h : 'a'.val ≤ c.val ∧ c.val ≤ 'z'.val
  · exact .inr ⟨c.val.toNat, h.1, h.2, (Char.ofNat_toNat c).symm⟩
  · exact .inl (dif_neg h)

/-- The capital of a capital is itself. -/
theorem toUpper_toUpper (c : Char) : c.toUpper.toUpper = c.toUpper := by
  rcases toUpper_cases c with h | ⟨n, h1, h2, rfl⟩
  · rw [h, h]
  · interval_cases n <;> rfl

theorem eq_zero_of_toUpper_eq_zero {c : Char} (h : c.toUpper = '0') : c = '0' := by
  rcases toUpper_cases c with h' | ⟨n, h1, h2, rfl⟩
  · rw [← h', h]
  · interval_cases n <;> revert h <;> decide

@[simp] theorem hexDigit_toUpper (c : Char) : hexDigit c.toUpper = hexDigit c := by
  rcases toUpper_cases c with h | ⟨n, h1, h2, rfl⟩
  · rw [h]
  · interval_cases n <;> rfl

theorem toUpper_ne_X_of_decDigit {c : Char} {d : Nat} (h : decDigit c = some d) : c.toUpper ≠ 'X' := by
  rcases toUpper_cases c with h' | ⟨n, h1, h2, rfl⟩
  · rw [h']
    rintro rfl
    revert h
    decide +revert
  · exfalso
    interval_cases n <;> simp [decDigit] at h

/-! ## Numbers -/

/-- A hexadecimal number reads alike in either case. -/
theorem parseDigits_map_toUpper (acc : Nat) (t : List Char) :
    parseDigits 16 hexDigit acc (t.map Char.toUpper) = parseDigits 16 hexDigit acc t := by
  induction t generalizing acc with
  | nil => rfl
  | cons x t ih =>
    simp only [List.map_cons, parseDigits, hexDigit_toUpper]
    cases hexDigit x with
    | none => rfl
    | some d => exact ih _

/-- The digits of a longer text read on from those before. -/
theorem parseDigits_append (base : Nat) (digit : Char → Option Nat) (acc : Nat) (t u : List Char) :
    parseDigits base digit acc (t ++ u) = (parseDigits base digit acc t).bind fun a => parseDigits base digit a u := by
  induction t generalizing acc with
  | nil => rfl
  | cons x t ih =>
    simp only [List.cons_append, parseDigits]
    cases digit x with
    | none => rfl
    | some d => exact ih _

/-- Leading zeros count for nothing. -/
theorem parseDigits_zeros (base : Nat) {digit : Char → Option Nat} (h : digit '0' = some 0) (z : Nat) :
    parseDigits base digit 0 (List.replicate z '0') = some 0 := by
  induction z with
  | zero => rfl
  | succ z ih => simpa [List.replicate_succ, parseDigits, h] using ih

/-- The digits of a number read as the number. -/
theorem parseDigits_toDigits {base : Nat} {digit : Char → Option Nat} (hb : 1 < base)
    (h : ∀ d, d < base → digit d.digitChar = some d) (n : Nat) :
    parseDigits base digit 0 (Nat.toDigits base n) = some n := by
  induction n using Nat.strong_induction_on with
  | h n ih =>
    by_cases hn : n < base
    · rw [Nat.toDigits_of_lt_base hn]
      simp [parseDigits, h n hn]
    · have hn' := Nat.not_lt.1 hn
      rw [Nat.toDigits_of_base_le hb hn', parseDigits_append, ih _ (Nat.div_lt_self (by omega) hb)]
      simp only [Option.bind_some, parseDigits, h _ (Nat.mod_lt n (by omega))]
      rw [Nat.div_add_mod' n base]

/-- A number's literal, with any count of leading zeros, reads as the number. -/
theorem parseNumber_literal {base : Nat} {digit : Char → Option Nat} (hb : 1 < base)
    (h : ∀ d, d < base → digit d.digitChar = some d) (z n : Nat) :
    parseNumber base digit (List.replicate z '0' ++ Nat.toDigits base n) = some n := by
  have h0 : digit '0' = some 0 := h 0 (by omega)
  rw [parseNumber, if_neg (by simp), parseDigits_append, parseDigits_zeros base h0]
  exact parseDigits_toDigits hb h n

theorem decDigit_digitChar (d : Nat) (h : d < 10) : decDigit d.digitChar = some d := by
  interval_cases d <;> rfl

theorem hexDigit_digitChar (d : Nat) (h : d < 16) : hexDigit d.digitChar = some d := by
  interval_cases d <;> rfl

theorem parseDigits_cons_some {base digit acc x t n} (h : parseDigits base digit acc (x :: t) = some n) :
    ∃ d, digit x = some d ∧ parseDigits base digit (acc * base + d) t = some n := by
  rw [parseDigits] at h
  split at h
  · exact ⟨_, by assumption, h⟩
  · cases h

theorem parseNumber_some {base digit t n} (h : parseNumber base digit t = some n) :
    parseDigits base digit 0 t = some n := by
  unfold parseNumber at h
  split at h
  · cases h
  · exact h

/-- A decimal literal is no hexadecimal one. -/
theorem hexBody_of_decimal {t : List Char} {n : Nat} (h : parseNumber 10 decDigit t = some n) : hexBody t = none := by
  have h := parseNumber_some h
  unfold hexBody
  split
  · rename_i x rest
    obtain ⟨_, _, h⟩ := parseDigits_cons_some h
    obtain ⟨d, hd, h⟩ := parseDigits_cons_some h
    simp [toUpper_ne_X_of_decDigit hd]
  · rfl

/-- A decimal literal reads as itself where a sign may stand. -/
theorem parseSigned_of_decimal {t : List Char} {n : Nat} (h : parseNumber 10 decDigit t = some n) :
    parseSigned t = some (n : Int) := by
  unfold parseSigned
  split
  · obtain ⟨d, hd, h⟩ := parseDigits_cons_some (parseNumber_some h)
    simp [decDigit] at hd
  · simp [h]

/-- The digits of a hexadecimal literal of either case. -/
theorem hexBody_of_upper {t u : List Char} (h : t.map Char.toUpper = "0X".toList ++ u) :
    ∃ body, hexBody t = some body ∧ body.map Char.toUpper = u := by
  match t with
  | [] => simp at h
  | [a] => simp at h
  | a :: b :: rest =>
    simp only [List.map_cons] at h
    have e : "0X".toList ++ u = '0' :: 'X' :: u := rfl
    rw [e] at h
    injection h with h1 h
    injection h with h2 h
    have := eq_zero_of_toUpper_eq_zero h1
    subst this
    exact ⟨rest, by simp [hexBody, h2], h⟩

/-- A hexadecimal literal of either case reads as its number. -/
theorem parseNumber_hex {t : List Char} {z n : Nat}
    (h : t.map Char.toUpper = List.replicate z '0' ++ (Nat.toDigits 16 n).map Char.toUpper) :
    parseNumber 16 hexDigit t = some n := by
  have e : t.map Char.toUpper = (List.replicate z '0' ++ Nat.toDigits 16 n).map Char.toUpper := by
    rw [h, List.map_append, List.map_replicate]; rfl
  have hn : t ≠ [] := by rintro rfl; simp at e
  have := parseNumber_some (parseNumber_literal (by decide) hexDigit_digitChar z n)
  rw [← parseDigits_map_toUpper, ← e, parseDigits_map_toUpper] at this
  rw [parseNumber, if_neg hn, this]

/-! ## Blanks and commas -/

theorem dropBlanks_append {b : List Char} (h : b.all isBlank = true) (t : List Char) :
    (b ++ t).dropWhile isBlank = t.dropWhile isBlank := by
  induction b with
  | nil => rfl
  | cons x b ih =>
    simp only [List.all_cons, Bool.and_eq_true] at h
    rw [List.cons_append, List.dropWhile_cons_of_pos h.1]
    exact ih h.2

theorem dropBlanks_nonblank {t : List Char} (h : ∀ x ∈ t, isBlank x = false) : t.dropWhile isBlank = t := by
  cases t with
  | nil => rfl
  | cons x u => exact List.dropWhile_cons_of_neg (by simp [h x])

/-- Blanks at the front are trimmed. -/
theorem trimBlanks_blank_append {b : List Char} (h : b.all isBlank = true) (t : List Char) :
    trimBlanks (b ++ t) = trimBlanks t := by
  rw [trimBlanks, dropBlanks_append h, trimBlanks]

/-- Blanks at the end are trimmed. -/
theorem trimBlanks_append_blank {b : List Char} (h : b.all isBlank = true) (t : List Char) :
    trimBlanks (t ++ b) = trimBlanks t := by
  have hr : b.reverse.all isBlank = true := by simpa using h
  unfold trimBlanks
  by_cases hd : t.dropWhile isBlank = []
  · have ht : t.all isBlank = true := by simpa [List.dropWhile_eq_nil_iff] using hd
    rw [dropBlanks_append ht, hd]
    have : b.dropWhile isBlank = [] := by simpa [List.dropWhile_eq_nil_iff] using h
    rw [this]
  · rw [List.dropWhile_append]
    have hf : (List.dropWhile isBlank t).isEmpty = false := by simpa using hd
    rw [hf]
    simp only [Bool.false_eq_true, if_false, List.reverse_append]
    rw [dropBlanks_append hr]

theorem trimBlanks_blank {b : List Char} (h : b.all isBlank = true) : trimBlanks b = [] := by
  have := trimBlanks_append_blank h []
  rwa [List.nil_append] at this

theorem trimBlanks_of_nonblank {t : List Char} (h : ∀ x ∈ t, isBlank x = false) : trimBlanks t = t := by
  rw [trimBlanks, dropBlanks_nonblank h, dropBlanks_nonblank (by simpa using h), List.reverse_reverse]

/-- A text is its trimmed text between blanks. -/
theorem trimBlanks_split (t : List Char) :
    ∃ l r, l.all isBlank = true ∧ r.all isBlank = true ∧ t = l ++ trimBlanks t ++ r := by
  refine ⟨t.takeWhile isBlank, ((t.dropWhile isBlank).reverse.takeWhile isBlank).reverse, ?_, ?_, ?_⟩
  · exact List.all_takeWhile
  · rw [List.all_reverse]; exact List.all_takeWhile
  · rw [trimBlanks, List.append_assoc, ← List.reverse_append, List.takeWhile_append_dropWhile,
      List.reverse_reverse, List.takeWhile_append_dropWhile]

/-- Trimming leaves a nonblank front where it is and takes the blanks off the rest's end. -/
theorem trimBlanks_nonblank_append {m : List Char} (hm : m ≠ []) (hn : ∀ x ∈ m, isBlank x = false)
    (rest : List Char) :
    ∃ core blanks, blanks.all isBlank = true ∧ rest = core ++ blanks ∧ trimBlanks (m ++ rest) = m ++ core := by
  refine ⟨(rest.reverse.dropWhile isBlank).reverse, (rest.reverse.takeWhile isBlank).reverse, ?_, ?_, ?_⟩
  · rw [List.all_reverse]; exact List.all_takeWhile
  · rw [← List.reverse_append, List.takeWhile_append_dropWhile, List.reverse_reverse]
  · have h1 : (m ++ rest).dropWhile isBlank = m ++ rest := by
      cases m with
      | nil => exact absurd rfl hm
      | cons x m => exact List.dropWhile_cons_of_neg (by simp [hn x])
    have h2 : m.reverse.dropWhile isBlank = m.reverse := dropBlanks_nonblank (by simpa using hn)
    rw [trimBlanks, h1, List.reverse_append, List.dropWhile_append, h2]
    split_ifs with he
    · rw [List.isEmpty_iff.1 he]; simp
    · simp

theorem splitCommas_ne_nil (t : List Char) : splitCommas t ≠ [] := by
  cases t with
  | nil => simp [splitCommas]
  | cons x t =>
    rw [splitCommas]
    split
    · simp
    · split <;> simp

theorem splitCommas_cons {x : Char} (h : x ≠ ',') (t : List Char) :
    ∃ p ps, splitCommas t = p :: ps ∧ splitCommas (x :: t) = (x :: p) :: ps := by
  obtain ⟨p, ps, e⟩ := List.exists_cons_of_ne_nil (splitCommas_ne_nil t)
  exact ⟨p, ps, e, by simp [splitCommas, e, h]⟩

theorem splitCommas_comma (t : List Char) : splitCommas (',' :: t) = [] :: splitCommas t := by
  obtain ⟨p, ps, e⟩ := List.exists_cons_of_ne_nil (splitCommas_ne_nil t)
  simp [splitCommas, e]

theorem splitCommas_no_comma {t : List Char} (h : ∀ x ∈ t, x ≠ ',') : splitCommas t = [t] := by
  induction t with
  | nil => rfl
  | cons x t ih =>
    obtain ⟨p, ps, e, e'⟩ := splitCommas_cons (h x (by simp)) t
    rw [ih fun y hy => h y (by simp [hy])] at e
    rw [e']; injection e with e1 e2; rw [← e1, ← e2]

/-- The piece before the first comma. -/
theorem splitCommas_append_comma {t : List Char} (h : ∀ x ∈ t, x ≠ ',') (u : List Char) :
    splitCommas (t ++ ',' :: u) = t :: splitCommas u := by
  induction t with
  | nil => exact splitCommas_comma u
  | cons x t ih =>
    obtain ⟨p, ps, e, e'⟩ := splitCommas_cons (h x (by simp)) (t ++ ',' :: u)
    rw [ih fun y hy => h y (by simp [hy])] at e
    rw [List.cons_append, e']; injection e with e1 e2; rw [← e1, ← e2]

/-- A text without commas goes to the last piece. -/
theorem splitCommas_append {b : List Char} (h : ∀ x ∈ b, x ≠ ',') (t : List Char) :
    ∃ init last, splitCommas t = init ++ [last] ∧ splitCommas (t ++ b) = init ++ [last ++ b] := by
  induction t with
  | nil => exact ⟨[], [], rfl, splitCommas_no_comma h⟩
  | cons x t ih =>
    obtain ⟨init, last, e1, e2⟩ := ih
    by_cases hx : x = ','
    · subst hx
      exact ⟨[] :: init, last, by rw [splitCommas_comma, e1]; rfl,
        by rw [List.cons_append, splitCommas_comma, e2]; rfl⟩
    · obtain ⟨p, ps, g, g'⟩ := splitCommas_cons hx t
      obtain ⟨q, qs, k, k'⟩ := splitCommas_cons hx (t ++ b)
      rw [List.cons_append, g', k']
      rw [e1] at g
      rw [e2] at k
      cases init with
      | nil =>
        injection g with g1 g2
        injection k with k1 k2
        exact ⟨[], x :: last, by rw [← g1, ← g2]; rfl, by rw [← k1, ← k2]; rfl⟩
      | cons i init =>
        injection g with g1 g2
        injection k with k1 k2
        exact ⟨(x :: i) :: init, last, by rw [← g1, ← g2]; rfl, by rw [← k1, ← k2]; rfl⟩

theorem blank_ne_comma {x : Char} (h : isBlank x = true) : x ≠ ',' := by rintro rfl; revert h; decide

/-- Blanks at the front change no trimmed piece. -/
theorem map_trim_splitCommas_blank_append {b : List Char} (h : b.all isBlank = true) (t : List Char) :
    (splitCommas (b ++ t)).map trimBlanks = (splitCommas t).map trimBlanks := by
  induction b with
  | nil => rfl
  | cons x b ih =>
    simp only [List.all_cons, Bool.and_eq_true] at h
    obtain ⟨p, ps, e, e'⟩ := splitCommas_cons (blank_ne_comma h.1) (b ++ t)
    have := ih h.2
    rw [e] at this
    rw [List.cons_append, e', ← this, List.map_cons, List.map_cons]
    rw [show x :: p = [x] ++ p from rfl, trimBlanks_blank_append (by simp [h.1])]

/-- Blanks at the end change no trimmed piece. -/
theorem map_trim_splitCommas_append_blank {b : List Char} (h : b.all isBlank = true) (t : List Char) :
    (splitCommas (t ++ b)).map trimBlanks = (splitCommas t).map trimBlanks := by
  obtain ⟨init, last, e1, e2⟩ := splitCommas_append (fun x hx => blank_ne_comma (List.all_eq_true.1 h x hx)) t
  rw [e1, e2, List.map_append, List.map_append, List.map_singleton, List.map_singleton, trimBlanks_append_blank h]

/-- Trimming a text changes no trimmed piece. -/
theorem map_trim_splitCommas_trim (t : List Char) :
    (splitCommas (trimBlanks t)).map trimBlanks = (splitCommas t).map trimBlanks := by
  obtain ⟨l, r, hl, hr, e⟩ := trimBlanks_split t
  conv_rhs => rw [e]
  rw [map_trim_splitCommas_append_blank hr, map_trim_splitCommas_blank_append hl]

/-- A line is its mnemonic, and the trimmed pieces of what follows. -/
theorem assembleLine_eq {before m rest : List Char} (hb : before.all isBlank = true) (hm : m ≠ [])
    (hn : ∀ x ∈ m, isBlank x = false) (hr : ∀ x ∈ rest.head?, isBlank x = true) :
    assembleLine (before ++ m ++ rest) =
      assemble m (if trimBlanks rest = [] then [] else (splitCommas rest).map trimBlanks) := by
  obtain ⟨core, blanks, hbl, rfl, ht⟩ := trimBlanks_nonblank_append hm hn rest
  have htl : trimBlanks (before ++ m ++ (core ++ blanks)) = m ++ core := by
    rw [List.append_assoc, trimBlanks_blank_append hb, ht]
  have htk : (m ++ core).takeWhile (fun x => !isBlank x) = m := by
    rw [List.takeWhile_append_of_pos (by simpa using hn)]
    cases core with
    | nil => simp
    | cons x core => rw [List.takeWhile_cons_of_neg (by simp [hr x (by simp)])]; simp
  unfold assembleLine
  simp only [htl, htk, List.drop_left]
  rw [map_trim_splitCommas_trim, trimBlanks_append_blank hbl, map_trim_splitCommas_append_blank hbl]

/-! ## Rows of the table -/

/-- A mnemonic in capitals assembles by its row of the table. -/
theorem assemble_of_row {m : String} {f : List (List Char) → Option (List Instr)} (ops : List (List Char))
    (hu : m.toList.map Char.toUpper = m.toList) (hw : m.toList ≠ ".WORD".toList)
    (hr : asmTable.find? (fun row => row.1.toList == m.toList) = some (m, f)) :
    assemble m.toList ops = (f ops).map fun cmds => cmds.map encode := by
  unfold assemble
  rw [hu, if_neg hw, assembleUpper, hr]

end Sys2Proof.Machine
end

