-- ==== Sys2Proof/Laws/State.lean ====
section
/-! SUPPORT. One lemma per field per update of the state and of the block, so that no later proof unfolds a record
update. -/

namespace Sys2Proof.Machine

/-! `State.setBlock` -/

@[simp] theorem State.setBlock_block (s : State) (b : Block) : (s.setBlock b).block = b := rfl
@[simp] theorem State.setBlock_inputs (s : State) (b : Block) : (s.setBlock b).inputs = s.inputs := rfl
@[simp] theorem State.setBlock_completions (s : State) (b : Block) : (s.setBlock b).completions = s.completions := rfl
@[simp] theorem State.setBlock_frames (s : State) (b : Block) : (s.setBlock b).frames = s.frames := rfl

/-! `State.respond` -/

@[simp] theorem State.respond_block (s : State) : s.respond.block = s.block := rfl
@[simp] theorem State.respond_inputs (s : State) : s.respond.inputs = s.inputs := rfl
@[simp] theorem State.respond_completions (s : State) : s.respond.completions = s.completions ++ [.ok] := rfl
@[simp] theorem State.respond_frames (s : State) : s.respond.frames = s.frames := rfl

/-! `State.respondData` -/

@[simp] theorem State.respondData_block (s : State) (d : Word) : (s.respondData d).block = s.block := rfl
@[simp] theorem State.respondData_inputs (s : State) (d : Word) : (s.respondData d).inputs = s.inputs := rfl
@[simp] theorem State.respondData_completions (s : State) (d : Word) : (s.respondData d).completions = s.completions ++ [.okData d] := rfl
@[simp] theorem State.respondData_frames (s : State) (d : Word) : (s.respondData d).frames = s.frames := rfl

/-! `State.emit` -/

@[simp] theorem State.emit_block (s : State) (f : TxFrame) : (s.emit f).block = s.block := rfl
@[simp] theorem State.emit_inputs (s : State) (f : TxFrame) : (s.emit f).inputs = s.inputs := rfl
@[simp] theorem State.emit_completions (s : State) (f : TxFrame) : (s.emit f).completions = s.completions := rfl
@[simp] theorem State.emit_frames (s : State) (f : TxFrame) : (s.emit f).frames = s.frames ++ [f] := rfl

/-! `State.raiseCmdError` -/

@[simp] theorem State.raiseCmdError_block (s : State) (e : CmdError) (w : Word) : (s.raiseCmdError e w).block = s.block.captureError e w := rfl
@[simp] theorem State.raiseCmdError_inputs (s : State) (e : CmdError) (w : Word) : (s.raiseCmdError e w).inputs = s.inputs := rfl
@[simp] theorem State.raiseCmdError_completions (s : State) (e : CmdError) (w : Word) : (s.raiseCmdError e w).completions = s.completions ++ [.error e] := rfl
@[simp] theorem State.raiseCmdError_frames (s : State) (e : CmdError) (w : Word) : (s.raiseCmdError e w).frames = s.frames := rfl

/-! `State.resetBlock` -/

@[simp] theorem State.resetBlock_block (s : State) : s.resetBlock.block = Block.reset := rfl
@[simp] theorem State.resetBlock_inputs (s : State) : s.resetBlock.inputs = s.inputs := rfl
@[simp] theorem State.resetBlock_completions (s : State) : s.resetBlock.completions = s.completions := rfl
@[simp] theorem State.resetBlock_frames (s : State) : s.resetBlock.frames = s.frames := rfl

/-! `State.issue` -/

@[simp] theorem State.issue_block (s : State) (w : Word) : (s.issue w).block = s.block := rfl
@[simp] theorem State.issue_inputs (s : State) (w : Word) : (s.issue w).inputs = s.inputs ++ [.command w] := rfl
@[simp] theorem State.issue_completions (s : State) (w : Word) : (s.issue w).completions = s.completions := rfl
@[simp] theorem State.issue_frames (s : State) (w : Word) : (s.issue w).frames = s.frames := rfl

/-! `State.assertReset` -/

@[simp] theorem State.assertReset_block (s : State) : s.assertReset.block = s.block := rfl
@[simp] theorem State.assertReset_inputs (s : State) : s.assertReset.inputs = s.inputs ++ [.reset] := rfl
@[simp] theorem State.assertReset_completions (s : State) : s.assertReset.completions = s.completions := rfl
@[simp] theorem State.assertReset_frames (s : State) : s.assertReset.frames = s.frames := rfl

/-! `State.offer` -/

@[simp] theorem State.offer_block (s : State) (w : Word) : (s.offer w).block = s.block := rfl
@[simp] theorem State.offer_inputs (s : State) (w : Word) : (s.offer w).inputs = .command w :: s.inputs := rfl
@[simp] theorem State.offer_completions (s : State) (w : Word) : (s.offer w).completions = s.completions := rfl
@[simp] theorem State.offer_frames (s : State) (w : Word) : (s.offer w).frames = s.frames := rfl

/-! `State.offerReset` -/

@[simp] theorem State.offerReset_block (s : State) : s.offerReset.block = s.block := rfl
@[simp] theorem State.offerReset_inputs (s : State) : s.offerReset.inputs = .reset :: s.inputs := rfl
@[simp] theorem State.offerReset_completions (s : State) : s.offerReset.completions = s.completions := rfl
@[simp] theorem State.offerReset_frames (s : State) : s.offerReset.frames = s.frames := rfl

/-! `Block.writeCh` -/

@[simp] theorem Block.writeCh_ch (b : Block) (k : Nat) (h : k < 24) (v : ChanVal) :
    (b.writeCh k h v).ch = b.ch.set k v h := rfl
@[simp] theorem Block.writeCh_fb (b : Block) (k : Nat) (h : k < 24) (v : ChanVal) : (b.writeCh k h v).fb = b.fb := rfl
@[simp] theorem Block.writeCh_wptr (b : Block) (k : Nat) (h : k < 24) (v : ChanVal) :
    (b.writeCh k h v).wptr = b.wptr := rfl
@[simp] theorem Block.writeCh_dirty (b : Block) (k : Nat) (h : k < 24) (v : ChanVal) :
    (b.writeCh k h v).dirty = b.dirty := rfl
@[simp] theorem Block.writeCh_err (b : Block) (k : Nat) (h : k < 24) (v : ChanVal) :
    (b.writeCh k h v).err = b.err := rfl
@[simp] theorem Block.writeCh_cause (b : Block) (k : Nat) (h : k < 24) (v : ChanVal) :
    (b.writeCh k h v).cause = b.cause := rfl
@[simp] theorem Block.writeCh_errword (b : Block) (k : Nat) (h : k < 24) (v : ChanVal) :
    (b.writeCh k h v).errword = b.errword := rfl
@[simp] theorem Block.writeCh_clampLo (b : Block) (k : Nat) (h : k < 24) (v : ChanVal) :
    (b.writeCh k h v).clampLo = b.clampLo := rfl
@[simp] theorem Block.writeCh_clampHi (b : Block) (k : Nat) (h : k < 24) (v : ChanVal) :
    (b.writeCh k h v).clampHi = b.clampHi := rfl
@[simp] theorem Block.writeCh_ovf (b : Block) (k : Nat) (h : k < 24) (v : ChanVal) :
    (b.writeCh k h v).ovf = b.ovf := rfl

/-! `Block.note` -/

@[simp] theorem Block.note_ch (b : Block) (v : Int) : (b.note v).ch = b.ch := rfl
@[simp] theorem Block.note_fb (b : Block) (v : Int) : (b.note v).fb = b.fb := rfl
@[simp] theorem Block.note_wptr (b : Block) (v : Int) : (b.note v).wptr = b.wptr := rfl
@[simp] theorem Block.note_dirty (b : Block) (v : Int) : (b.note v).dirty = b.dirty := rfl
@[simp] theorem Block.note_err (b : Block) (v : Int) : (b.note v).err = b.err := rfl
@[simp] theorem Block.note_cause (b : Block) (v : Int) : (b.note v).cause = b.cause := rfl
@[simp] theorem Block.note_errword (b : Block) (v : Int) : (b.note v).errword = b.errword := rfl
@[simp] theorem Block.note_clampLo (b : Block) (v : Int) : (b.note v).clampLo = (b.clampLo || decide (v < 0)) := rfl
@[simp] theorem Block.note_clampHi (b : Block) (v : Int) :
    (b.note v).clampHi = (b.clampHi || decide (4095 < v)) := rfl
@[simp] theorem Block.note_ovf (b : Block) (v : Int) : (b.note v).ovf = b.ovf := rfl

/-! `Block.writeClamped` -/

@[simp] theorem Block.writeClamped_ch (b : Block) (k : Nat) (h : k < 24) (v : Int) :
    (b.writeClamped k h v).ch = b.ch.set k (clamp12 v) h := rfl
@[simp] theorem Block.writeClamped_fb (b : Block) (k : Nat) (h : k < 24) (v : Int) :
    (b.writeClamped k h v).fb = b.fb := rfl
@[simp] theorem Block.writeClamped_wptr (b : Block) (k : Nat) (h : k < 24) (v : Int) :
    (b.writeClamped k h v).wptr = b.wptr := rfl
@[simp] theorem Block.writeClamped_dirty (b : Block) (k : Nat) (h : k < 24) (v : Int) :
    (b.writeClamped k h v).dirty = true := rfl
@[simp] theorem Block.writeClamped_err (b : Block) (k : Nat) (h : k < 24) (v : Int) :
    (b.writeClamped k h v).err = b.err := rfl
@[simp] theorem Block.writeClamped_cause (b : Block) (k : Nat) (h : k < 24) (v : Int) :
    (b.writeClamped k h v).cause = b.cause := rfl
@[simp] theorem Block.writeClamped_errword (b : Block) (k : Nat) (h : k < 24) (v : Int) :
    (b.writeClamped k h v).errword = b.errword := rfl
@[simp] theorem Block.writeClamped_clampLo (b : Block) (k : Nat) (h : k < 24) (v : Int) :
    (b.writeClamped k h v).clampLo = (b.clampLo || decide (v < 0)) := rfl
@[simp] theorem Block.writeClamped_clampHi (b : Block) (k : Nat) (h : k < 24) (v : Int) :
    (b.writeClamped k h v).clampHi = (b.clampHi || decide (4095 < v)) := rfl
@[simp] theorem Block.writeClamped_ovf (b : Block) (k : Nat) (h : k < 24) (v : Int) :
    (b.writeClamped k h v).ovf = b.ovf := rfl

/-! `Block.clearChannels` -/

@[simp] theorem Block.clearChannels_ch (b : Block) : b.clearChannels.ch = Vector.replicate 24 0 := rfl
@[simp] theorem Block.clearChannels_fb (b : Block) : b.clearChannels.fb = b.fb := rfl
@[simp] theorem Block.clearChannels_wptr (b : Block) : b.clearChannels.wptr = 0 := rfl
@[simp] theorem Block.clearChannels_dirty (b : Block) : b.clearChannels.dirty = true := rfl
@[simp] theorem Block.clearChannels_err (b : Block) : b.clearChannels.err = b.err := rfl
@[simp] theorem Block.clearChannels_cause (b : Block) : b.clearChannels.cause = b.cause := rfl
@[simp] theorem Block.clearChannels_errword (b : Block) : b.clearChannels.errword = b.errword := rfl
@[simp] theorem Block.clearChannels_clampLo (b : Block) : b.clearChannels.clampLo = b.clampLo := rfl
@[simp] theorem Block.clearChannels_clampHi (b : Block) : b.clearChannels.clampHi = b.clampHi := rfl
@[simp] theorem Block.clearChannels_ovf (b : Block) : b.clearChannels.ovf = b.ovf := rfl

/-! `Block.latchFrame` -/

@[simp] theorem Block.latchFrame_ch (b : Block) : b.latchFrame.ch = b.ch := rfl
@[simp] theorem Block.latchFrame_fb (b : Block) : b.latchFrame.fb = encodeFrame b.ch := rfl
@[simp] theorem Block.latchFrame_wptr (b : Block) : b.latchFrame.wptr = b.wptr := rfl
@[simp] theorem Block.latchFrame_dirty (b : Block) : b.latchFrame.dirty = false := rfl
@[simp] theorem Block.latchFrame_err (b : Block) : b.latchFrame.err = b.err := rfl
@[simp] theorem Block.latchFrame_cause (b : Block) : b.latchFrame.cause = b.cause := rfl
@[simp] theorem Block.latchFrame_errword (b : Block) : b.latchFrame.errword = b.errword := rfl
@[simp] theorem Block.latchFrame_clampLo (b : Block) : b.latchFrame.clampLo = b.clampLo := rfl
@[simp] theorem Block.latchFrame_clampHi (b : Block) : b.latchFrame.clampHi = b.clampHi := rfl
@[simp] theorem Block.latchFrame_ovf (b : Block) : b.latchFrame.ovf = b.ovf := rfl

/-! `Block.clearStatus` -/

@[simp] theorem Block.clearStatus_ch (b : Block) : b.clearStatus.ch = b.ch := rfl
@[simp] theorem Block.clearStatus_fb (b : Block) : b.clearStatus.fb = b.fb := rfl
@[simp] theorem Block.clearStatus_wptr (b : Block) : b.clearStatus.wptr = b.wptr := rfl
@[simp] theorem Block.clearStatus_dirty (b : Block) : b.clearStatus.dirty = b.dirty := rfl
@[simp] theorem Block.clearStatus_err (b : Block) : b.clearStatus.err = false := rfl
@[simp] theorem Block.clearStatus_cause (b : Block) : b.clearStatus.cause = .none := rfl
@[simp] theorem Block.clearStatus_errword (b : Block) : b.clearStatus.errword = 0 := rfl
@[simp] theorem Block.clearStatus_clampLo (b : Block) : b.clearStatus.clampLo = false := rfl
@[simp] theorem Block.clearStatus_clampHi (b : Block) : b.clearStatus.clampHi = false := rfl
@[simp] theorem Block.clearStatus_ovf (b : Block) : b.clearStatus.ovf = false := rfl

/-! `Block.captureError` leaves everything but the three error registers -/

@[simp] theorem Block.captureError_ch (b : Block) (e : CmdError) (w : Word) :
    (b.captureError e w).ch = b.ch := by
  unfold Block.captureError; split <;> rfl
@[simp] theorem Block.captureError_fb (b : Block) (e : CmdError) (w : Word) :
    (b.captureError e w).fb = b.fb := by
  unfold Block.captureError; split <;> rfl
@[simp] theorem Block.captureError_wptr (b : Block) (e : CmdError) (w : Word) :
    (b.captureError e w).wptr = b.wptr := by
  unfold Block.captureError; split <;> rfl
@[simp] theorem Block.captureError_dirty (b : Block) (e : CmdError) (w : Word) :
    (b.captureError e w).dirty = b.dirty := by
  unfold Block.captureError; split <;> rfl
@[simp] theorem Block.captureError_clampLo (b : Block) (e : CmdError) (w : Word) :
    (b.captureError e w).clampLo = b.clampLo := by
  unfold Block.captureError; split <;> rfl
@[simp] theorem Block.captureError_clampHi (b : Block) (e : CmdError) (w : Word) :
    (b.captureError e w).clampHi = b.clampHi := by
  unfold Block.captureError; split <;> rfl
@[simp] theorem Block.captureError_ovf (b : Block) (e : CmdError) (w : Word) :
    (b.captureError e w).ovf = b.ovf := by
  unfold Block.captureError; split <;> rfl

/-- After a capture ERR is set, whatever it was. -/
@[simp] theorem Block.captureError_err (b : Block) (e : CmdError) (w : Word) : (b.captureError e w).err = true := by
  unfold Block.captureError; split
  · assumption
  · rfl

/-- An error while ERR = 1 changes nothing (R202). -/
theorem Block.captureError_of_err {b : Block} (h : b.err = true) (e : CmdError) (w : Word) :
    b.captureError e w = b := by
  simp [Block.captureError, h]

/-- The first error is recorded with its cause and its word (R202). -/
theorem Block.captureError_of_not_err {b : Block} (h : b.err = false) (e : CmdError) (w : Word) :
    b.captureError e w = { b with err := true, cause := errorCause e, errword := w } := by
  simp [Block.captureError, h]

end Sys2Proof.Machine
end

