-- ==== Sys2Proof/Laws/Decode.lean ====
section
/-! SUPPORT. The encoding as arithmetic on the number a word is: its fields, its required-zero masks, the word the
encoder lays out, and the opcode numbers. -/

namespace Sys2Proof

/-! ## Fields and masks of a word -/

theorem opField_eq (w : Word) : opField w = w.toNat / 2 ^ 28 := by
  have := w.isLt
  simp only [opField, BitVec.extractLsb'_toNat, Nat.shiftRight_eq_div_pow]
  omega

theorem idxField_eq (w : Word) : idxField w = w.toNat / 2 ^ 22 % 64 := by
  simp [idxField, Nat.shiftRight_eq_div_pow]

/-- The signed value of R72, by the sign bit of VAL. -/
theorem valField_eq (w : Word) :
    valField w = (((w.toNat % 65536 + 32768 : Nat) : Int) % 65536) - 32768 := by
  have h : (BitVec.extractLsb' 0 16 w).toNat = w.toNat % 65536 := by simp
  rw [valField, BitVec.toInt_signExtend_of_le (by decide), BitVec.toInt_eq_toNat_cond, h]
  split <;> omega

theorem opField_lt (w : Word) : opField w < 16 := by
  have := w.isLt; rw [opField_eq]; omega

theorem idxField_le (w : Word) : idxField w ≤ 63 := by rw [idxField_eq]; omega

theorem valField_fits (w : Word) : ValFits (valField w) := by
  rw [valField_eq]; constructor <;> omega

/-- A word has no bit set among the `len` bits from `lo` exactly when that field of its number is 0. -/
theorem and_field_mask_eq_zero (w : Word) (lo len : Nat) (h : lo + len ≤ 32) :
    w &&& BitVec.ofNat 32 ((2 ^ len - 1) <<< lo) = 0 ↔ w.toNat / 2 ^ lo % 2 ^ len = 0 := by
  constructor
  · intro hz
    apply Nat.eq_of_testBit_eq
    intro i
    have hb := congrArg (fun x : Word => x.getLsbD (lo + i)) hz
    simp only [BitVec.getLsbD_and, BitVec.getLsbD_ofNat, Nat.testBit_shiftLeft, Nat.testBit_two_pow_sub_one] at hb
    simp only [Nat.testBit_mod_two_pow, Nat.testBit_div_two_pow, Nat.zero_testBit]
    rw [← BitVec.getLsbD, Nat.add_comm i lo]
    by_cases hi : i < len
    · have h32 : lo + i < 32 := by omega
      simpa [hi, h32] using hb
    · simp [hi]
  · intro hz
    apply BitVec.eq_of_getLsbD_eq
    intro j hj
    have hb := congrArg (fun x : Nat => x.testBit (j - lo)) hz
    simp only [Nat.testBit_mod_two_pow, Nat.testBit_div_two_pow, Nat.zero_testBit] at hb
    simp only [BitVec.getLsbD_and, BitVec.getLsbD_ofNat, Nat.testBit_shiftLeft, Nat.testBit_two_pow_sub_one]
    by_cases hlo : lo ≤ j
    · rw [Nat.sub_add_cancel hlo, ← BitVec.getLsbD] at hb
      by_cases hl : j - lo < len
      · simp_all
      · simp [hl]
    · simp [hlo]

theorem and_mask_all (w : Word) : w &&& 0x0FFFFFFF = 0 ↔ w.toNat % 2 ^ 28 = 0 := by
  simpa using and_field_mask_eq_zero w 0 28 (by decide)

theorem and_mask_rsv (w : Word) : w &&& 0x003F0000 = 0 ↔ w.toNat / 2 ^ 16 % 2 ^ 6 = 0 :=
  and_field_mask_eq_zero w 16 6 (by decide)

theorem and_mask_idx_rsv (w : Word) : w &&& 0x0FFF0000 = 0 ↔ w.toNat / 2 ^ 16 % 2 ^ 12 = 0 :=
  and_field_mask_eq_zero w 16 12 (by decide)

theorem and_mask_rsv_val (w : Word) : w &&& 0x003FFFFF = 0 ↔ w.toNat % 2 ^ 22 = 0 := by
  simpa using and_field_mask_eq_zero w 0 22 (by decide)

/-! ## The encoder's words -/

/-- The number of the word the encoder lays out. -/
theorem layOut_toNat (op : BitVec 4) (idx : BitVec 6) (val : BitVec 16) :
    (layOut op idx val).toNat = op.toNat * 2 ^ 28 + idx.toNat * 2 ^ 22 + val.toNat := by
  have ho := op.isLt
  have hi := idx.isLt
  have hv := val.isLt
  have h0 : (0 : BitVec 6).toNat = 0 := rfl
  unfold layOut
  rw [BitVec.toNat_append, BitVec.toNat_append, BitVec.toNat_append]
  rw [← Nat.shiftLeft_add_eq_or_of_lt hi, ← Nat.shiftLeft_add_eq_or_of_lt (b := (0 : BitVec 6).toNat) (by decide),
    ← Nat.shiftLeft_add_eq_or_of_lt hv]
  simp only [Nat.shiftLeft_eq, h0]
  omega

/-- The number of a command's word. -/
theorem encode_toNat (i : Instr) :
    (encode i).toNat = i.opcode.code.toNat * 2 ^ 28 + i.idx % 64 * 2 ^ 22 + (i.val % 65536).toNat := by
  simp [encode, layOut_toNat, BitVec.toNat_ofInt]

/-- An index operand is a well-formed command's only if it fits, and every other index field is 0. -/
theorem Instr.idx_le (i : Instr) (h : i.WellFormed) : i.idx ≤ 63 := by
  cases i <;> simp_all [Instr.WellFormed, Instr.wf, Instr.idx]

theorem Instr.val_fits (i : Instr) (h : i.WellFormed) : ValFits i.val := by
  cases i <;> simp_all [Instr.WellFormed, Instr.wf, Instr.val, ValFits]

/-- The index field of a well-formed command's word is its index operand, 0 where it has none. -/
theorem idxField_encode {i : Instr} (h : i.WellFormed) : idxField (encode i) = i.idx := by
  have hi := i.idx_le h
  have hv : (i.val % 65536).toNat < 65536 := by omega
  rw [idxField_eq, encode_toNat]
  omega

/-- The value field of a well-formed command's word is its value operand, 0 where it has none. -/
theorem valField_encode {i : Instr} (h : i.WellFormed) : valField (encode i) = i.val := by
  have hv := i.val_fits h
  unfold ValFits at hv
  rw [valField_eq, encode_toNat]
  omega

/-! ## Opcode numbers -/

theorem opcodeOf_code (o : Opcode) : opcodeOf o.code.toNat = some o := by cases o <;> rfl

theorem opcodeOf_eq_some (n : Nat) (o : Opcode) : opcodeOf n = some o ↔ n = o.code.toNat := by
  constructor
  · intro h
    unfold opcodeOf at h
    split at h <;> cases h <;> rfl
  · rintro rfl
    exact opcodeOf_code o

theorem opcodeOf_eq_none (n : Nat) : opcodeOf n = none ↔ 0xB ≤ n := by
  constructor
  · intro h
    unfold opcodeOf at h
    split at h <;> simp_all
    omega
  · intro h
    unfold opcodeOf
    split <;> first | omega | rfl

theorem Opcode.code_inj {o o' : Opcode} (h : o.code.toNat = o'.code.toNat) : o = o' := by
  have := opcodeOf_code o
  rw [h, opcodeOf_code] at this
  exact (Option.some.inj this).symm

@[simp] theorem Opcode.command_opcode (o : Opcode) (idx : Nat) (val : Int) : (o.command idx val).opcode = o := by
  cases o <;> rfl

/-! ## What the decoder answers -/

theorem decode_eq_command (w : Word) (i : Instr) :
    decode w = .command i ↔
      ∃ o : Opcode, opField w = o.code.toNat ∧ w &&& o.zmask = 0 ∧ i = o.command (idxField w) (valField w) := by
  unfold decode
  constructor
  · intro h
    split at h
    · cases h
    · rename_i o ho
      split at h
      · cases h
      · rename_i hz
        cases h
        exact ⟨o, (opcodeOf_eq_some _ _).1 ho, not_not.1 hz, rfl⟩
  · rintro ⟨o, ho, hz, rfl⟩
    simp [(opcodeOf_eq_some _ _).2 ho, hz]

theorem decode_of_reserved_opcode {w : Word} (h : 0xB ≤ opField w) : decode w = .malformed .illegalOpcode := by
  simp [decode, (opcodeOf_eq_none _).2 h]

theorem decode_of_reserved_bits {w : Word} {o : Opcode} (ho : opField w = o.code.toNat) (h : w &&& o.zmask ≠ 0) :
    decode w = .malformed .reservedField := by
  rw [decode, (opcodeOf_eq_some _ _).2 ho]
  exact if_pos h

end Sys2Proof
end

