-- ==== Sys2Proof/Laws/Operands.lean ====
section
/-! SUPPORT. The cases of clamping and of PUSH's effect on the block. -/

namespace Sys2Proof.Machine

theorem clamp12_of_neg {v : Int} (h : v < 0) : clamp12 v = 0 := by simp [clamp12, h]

theorem clamp12_of_gt {v : Int} (h : 4095 < v) : clamp12 v = 4095 := by
  have : ¬ v < 0 := by omega
  simp [clamp12, h, this]

theorem clamp12_of_mem {v : Int} (h0 : 0 ≤ v) (h1 : v ≤ 4095) : clamp12 v = BitVec.ofNat 12 v.toNat := by
  have : ¬ v < 0 := by omega
  have : ¬ 4095 < v := by omega
  simp [clamp12, *]

/-- A PUSH with WPTR below 24 writes channel WPTR and moves WPTR on (R105). -/
theorem Block.pushValue_of_lt (b : Block) (v : Int) (h : b.wptr.val < 24) :
    b.pushValue v = { b.writeClamped b.wptr.val h v with wptr := ⟨b.wptr.val + 1, Nat.succ_lt_succ h⟩ } := by
  simp [Block.pushValue, h]

/-- A PUSH with WPTR = 24 only sets OVF (R105). -/
theorem Block.pushValue_of_full (b : Block) (v : Int) (h : b.wptr.val = 24) :
    b.pushValue v = { b with ovf := true } := by
  simp [Block.pushValue, h]

@[simp] theorem Block.pushValue_fb (b : Block) (v : Int) : (b.pushValue v).fb = b.fb := by
  unfold Block.pushValue; split <;> rfl

@[simp] theorem Block.pushValue_err (b : Block) (v : Int) : (b.pushValue v).err = b.err := by
  unfold Block.pushValue; split <;> rfl

@[simp] theorem Block.pushValue_cause (b : Block) (v : Int) : (b.pushValue v).cause = b.cause := by
  unfold Block.pushValue; split <;> rfl

@[simp] theorem Block.pushValue_errword (b : Block) (v : Int) : (b.pushValue v).errword = b.errword := by
  unfold Block.pushValue; split <;> rfl

end Sys2Proof.Machine
end

