-- ==== Sys2Proof/Laws/Step.lean ====
section
/-! SUPPORT. What each command answers, what one step can do, and how runs compose. -/

namespace Sys2Proof.Machine

/-! ## What each command answers -/

theorem exec_nop (s : State) : exec .nop s = .next s.respond := rfl

theorem exec_clear (s : State) : exec .clear s = .next (s.setBlock s.block.clearChannels).respond := rfl

theorem exec_load_of_lt (s : State) (ch : Nat) (v : Int) (h : ch < 24) :
    exec (.load ch v) s = .next (s.setBlock (s.block.writeClamped ch h v)).respond := by
  simp only [exec, execLoad, dif_pos h]

theorem exec_load_of_ge (s : State) (ch : Nat) (v : Int) (h : 24 ≤ ch) :
    exec (.load ch v) s = .next (s.raiseCmdError .badIndex (encode (.load ch v))) := by
  simp only [exec, execLoad, dif_neg (Nat.not_lt.2 h)]

theorem exec_push (s : State) (v : Int) :
    exec (.push v) s = .next (s.setBlock (s.block.pushValue v)).respond := rfl

theorem exec_encode (s : State) : exec .encode s = .next (s.setBlock s.block.latchFrame).respond := rfl

theorem exec_xmit (s : State) : exec .xmit s = .next (s.emit (txOrder s.block.fb)).respond := rfl

theorem exec_rdfb_of_lt (s : State) (k : Nat) (h : k < 36) :
    exec (.rdfb k) s = .next (s.respondData (s.block.fb[k].setWidth 32)) := by
  simp only [exec, execRdfb, dif_pos h]

theorem exec_rdfb_of_ge (s : State) (k : Nat) (h : 36 ≤ k) :
    exec (.rdfb k) s = .next (s.raiseCmdError .badIndex (encode (.rdfb k))) := by
  simp only [exec, execRdfb, dif_neg (Nat.not_lt.2 h)]

theorem exec_rdch_of_lt (s : State) (k : Nat) (h : k < 24) :
    exec (.rdch k) s = .next (s.respondData (s.block.ch[k].setWidth 32)) := by
  simp only [exec, execRdch, dif_pos h]

theorem exec_rdch_of_ge (s : State) (k : Nat) (h : 24 ≤ k) :
    exec (.rdch k) s = .next (s.raiseCmdError .badIndex (encode (.rdch k))) := by
  simp only [exec, execRdch, dif_neg (Nat.not_lt.2 h)]

theorem exec_rdstat (s : State) : exec .rdstat s = .next (s.respondData s.block.status) := rfl

theorem exec_rderr (s : State) : exec .rderr s = .next (s.respondData s.block.errword) := rfl

theorem exec_clrstat (s : State) : exec .clrstat s = .next (s.setBlock s.block.clearStatus).respond := rfl

/-- Everything a command can do to the block: nothing, its own effect, or the record of a bad index. -/
theorem exec_block_cases {i : Instr} {s t : State} (h : exec i s = .next t) :
    t.block = s.block ∨
    (i = .clear ∧ t.block = s.block.clearChannels) ∨
    (∃ ch v, ∃ hc : ch < 24, i = .load ch v ∧ t.block = s.block.writeClamped ch hc v) ∨
    (∃ v, i = .push v ∧ t.block = s.block.pushValue v) ∨
    (i = .encode ∧ t.block = s.block.latchFrame) ∨
    (i = .clrstat ∧ t.block = s.block.clearStatus) ∨
    (((∃ ch v, i = .load ch v ∧ 24 ≤ ch) ∨ (∃ k, i = .rdfb k ∧ 36 ≤ k) ∨ ∃ k, i = .rdch k ∧ 24 ≤ k) ∧
      t.block = s.block.captureError .badIndex (encode i)) := by
  cases i with
  | nop => cases h; exact .inl rfl
  | clear => cases h; exact .inr (.inl ⟨rfl, rfl⟩)
  | load ch val =>
    by_cases hc : ch < 24
    · rw [exec_load_of_lt s ch val hc] at h
      cases h
      exact .inr (.inr (.inl ⟨ch, val, hc, rfl, rfl⟩))
    · have hc' := Nat.not_lt.1 hc
      rw [exec_load_of_ge s ch val hc'] at h
      cases h
      exact .inr (.inr (.inr (.inr (.inr (.inr ⟨.inl ⟨ch, val, rfl, hc'⟩, rfl⟩)))))
  | push val => cases h; exact .inr (.inr (.inr (.inl ⟨val, rfl, rfl⟩)))
  | encode => cases h; exact .inr (.inr (.inr (.inr (.inl ⟨rfl, rfl⟩))))
  | xmit => cases h; exact .inl rfl
  | rdfb byte =>
    by_cases hc : byte < 36
    · rw [exec_rdfb_of_lt s byte hc] at h
      cases h
      exact .inl rfl
    · have hc' := Nat.not_lt.1 hc
      rw [exec_rdfb_of_ge s byte hc'] at h
      cases h
      exact .inr (.inr (.inr (.inr (.inr (.inr ⟨.inr (.inl ⟨byte, rfl, hc'⟩), rfl⟩)))))
  | rdch ch =>
    by_cases hc : ch < 24
    · rw [exec_rdch_of_lt s ch hc] at h
      cases h
      exact .inl rfl
    · have hc' := Nat.not_lt.1 hc
      rw [exec_rdch_of_ge s ch hc'] at h
      cases h
      exact .inr (.inr (.inr (.inr (.inr (.inr ⟨.inr (.inr ⟨ch, rfl, hc'⟩), rfl⟩)))))
  | rdstat => cases h; exact .inl rfl
  | rderr => cases h; exact .inl rfl
  | clrstat => cases h; exact .inr (.inr (.inr (.inr (.inr (.inl ⟨rfl, rfl⟩)))))

/-- A command leaves the inputs as they are, and what it does never depends on them. -/
theorem exec_ignores_inputs (i : Instr) (s : State) :
    ∃ t, exec i s = .next t ∧ t.inputs = s.inputs ∧
      ∀ xs, exec i { s with inputs := xs } = .next { t with inputs := xs } := by
  cases i with
  | nop => exact ⟨_, rfl, rfl, fun _ => rfl⟩
  | clear => exact ⟨_, rfl, rfl, fun _ => rfl⟩
  | load ch val =>
    by_cases h : ch < 24
    · exact ⟨_, exec_load_of_lt s ch val h, rfl, fun _ => exec_load_of_lt _ ch val h⟩
    · exact ⟨_, exec_load_of_ge s ch val (Nat.not_lt.1 h), rfl, fun _ => exec_load_of_ge _ ch val (Nat.not_lt.1 h)⟩
  | push val => exact ⟨_, rfl, rfl, fun _ => rfl⟩
  | encode => exact ⟨_, rfl, rfl, fun _ => rfl⟩
  | xmit => exact ⟨_, rfl, rfl, fun _ => rfl⟩
  | rdfb byte =>
    by_cases h : byte < 36
    · exact ⟨_, exec_rdfb_of_lt s byte h, rfl, fun _ => exec_rdfb_of_lt _ byte h⟩
    · exact ⟨_, exec_rdfb_of_ge s byte (Nat.not_lt.1 h), rfl, fun _ => exec_rdfb_of_ge _ byte (Nat.not_lt.1 h)⟩
  | rdch ch =>
    by_cases h : ch < 24
    · exact ⟨_, exec_rdch_of_lt s ch h, rfl, fun _ => exec_rdch_of_lt _ ch h⟩
    · exact ⟨_, exec_rdch_of_ge s ch (Nat.not_lt.1 h), rfl, fun _ => exec_rdch_of_ge _ ch (Nat.not_lt.1 h)⟩
  | rdstat => exact ⟨_, rfl, rfl, fun _ => rfl⟩
  | rderr => exact ⟨_, rfl, rfl, fun _ => rfl⟩
  | clrstat => exact ⟨_, rfl, rfl, fun _ => rfl⟩

/-! ## What one step does -/

theorem step_of_no_input {s : State} (h : s.inputs = []) : step s = .next s := by
  simp [step, State.nextInput, h]

theorem step_of_reset {s : State} {rest : List Input} (h : s.inputs = .reset :: rest) :
    step s = .next { s with block := Block.reset, inputs := rest } := by
  simp [step, State.nextInput, h, State.resetBlock]

theorem step_of_malformed {s : State} {w : Word} {rest : List Input} {e : CmdError}
    (h : s.inputs = .command w :: rest) (hd : decode w = .malformed e) :
    step s = .next (({ s with inputs := rest } : State).raiseCmdError e w) := by
  simp [step, State.nextInput, h, hd]

theorem step_of_command {s : State} {w : Word} {rest : List Input} {i : Instr}
    (h : s.inputs = .command w :: rest) (hd : decode w = .command i) :
    step s = exec i { s with inputs := rest } := by
  simp [step, State.nextInput, h, hd]

theorem step_offer_malformed (s : State) {w : Word} {e : CmdError} (h : decode w = .malformed e) :
    step (s.offer w) = .next (s.raiseCmdError e w) :=
  step_of_malformed (s := s.offer w) (rest := s.inputs) rfl h

theorem step_offer_command (s : State) {w : Word} {i : Instr} (h : decode w = .command i) :
    step (s.offer w) = exec i s :=
  step_of_command (s := s.offer w) (rest := s.inputs) rfl h

/-- Everything a step can do: hold its state, reset, raise the error of a malformed word, or run a command. -/
theorem step_cases {s t : State} (h : step s = .next t) :
    (s.inputs = [] ∧ t = s) ∨
    (∃ rest, s.inputs = .reset :: rest ∧ t = { s with block := Block.reset, inputs := rest }) ∨
    (∃ w rest e, s.inputs = .command w :: rest ∧ decode w = .malformed e ∧
      t = ({ s with inputs := rest } : State).raiseCmdError e w) ∨
    (∃ w rest i, s.inputs = .command w :: rest ∧ decode w = .command i ∧
      exec i { s with inputs := rest } = .next t) := by
  match hi : s.inputs with
  | [] =>
    rw [step_of_no_input hi] at h
    cases h
    exact .inl ⟨rfl, rfl⟩
  | .reset :: rest =>
    rw [step_of_reset hi] at h
    cases h
    exact .inr (.inl ⟨rest, rfl, rfl⟩)
  | .command w :: rest =>
    match hd : decode w with
    | .malformed e =>
      rw [step_of_malformed hi hd] at h
      cases h
      exact .inr (.inr (.inl ⟨w, rest, e, rfl, hd, rfl⟩))
    | .command i =>
      rw [step_of_command hi hd] at h
      exact .inr (.inr (.inr ⟨w, rest, i, rfl, hd, h⟩))

/-- A step that has an input takes it alone: inputs behind it change nothing and stay behind what it leaves. -/
theorem step_with_later_inputs {s : State} (h : s.inputs ≠ []) :
    ∃ t, step s = .next t ∧
      ∀ later, step { s with inputs := s.inputs ++ later } = .next { t with inputs := t.inputs ++ later } := by
  match hi : s.inputs with
  | [] => exact absurd hi h
  | .reset :: rest => exact ⟨_, step_of_reset hi, fun later => step_of_reset (rest := rest ++ later) rfl⟩
  | .command w :: rest =>
    match hd : decode w with
    | .malformed e => exact ⟨_, step_of_malformed hi hd, fun later => step_of_malformed (rest := rest ++ later) rfl hd⟩
    | .command i =>
      obtain ⟨t, -, -, hx⟩ := exec_ignores_inputs i s
      refine ⟨{ t with inputs := rest }, (step_of_command hi hd).trans (hx rest), fun later => ?_⟩
      exact (step_of_command rfl hd).trans (hx (rest ++ later))

/-! ## Runs -/

theorem runSteps_succ_of_step {s t : State} (n : Nat) (h : step s = .next t) :
    runSteps (n + 1) s = runSteps n t := by
  simp [runSteps, h]

/-- A run whose first input is a command's word goes on from what the command answers. -/
theorem runSteps_command {w : Word} {i : Instr} {s t : State} (hd : decode w = .command i)
    (h : exec i s = .next t) (n : Nat) (xs : List Input) :
    runSteps (n + 1) { s with inputs := .command w :: xs } = runSteps n { t with inputs := xs } := by
  apply runSteps_succ_of_step
  rw [step_of_command rfl hd]
  obtain ⟨u, hu, -, hxs⟩ := exec_ignores_inputs i s
  rw [h] at hu
  cases hu
  exact hxs xs

/-- A run of `m + n` steps is a run of `m` and then a run of `n`. -/
theorem runSteps_add (m n : Nat) {s t : State} (h : runSteps m s = .next t) :
    runSteps (m + n) s = runSteps n t := by
  induction m generalizing s with
  | zero => cases h; rw [Nat.zero_add]
  | succ m ih =>
    rw [runSteps] at h
    split at h
    · rename_i u hu
      rw [Nat.succ_add, runSteps_succ_of_step _ hu]
      exact ih h
    · cases h
    · cases h

/-- `runSteps` is the host's run of the machine. -/
theorem runSteps_eq_core_run (n : Nat) (s : State) : runSteps n s = Host.Core.run Sys2Proof.core n s := by
  induction n generalizing s with
  | zero => rfl
  | succ n ih =>
    have e : Sys2Proof.core.step s = step s := rfl
    simp only [Host.Core.run, runSteps]
    rw [e]
    cases step s with
    | next t => exact ih t
    | fault r => rfl
    | refused r => rfl

end Sys2Proof.Machine
end

