-- ==== Sys2Proof/Laws/Errors.lean ====
section
/-! SUPPORT. `errorOf`, the checks of R79 as one function of the word, against the decoder and the index checks of the
meanings. -/

namespace Sys2Proof.Machine

/-- The error of a word the decoder rejects. -/
theorem errorOf_of_malformed {w : Word} {e : CmdError} (h : decode w = .malformed e) : errorOf w = some e := by
  unfold decode at h
  unfold errorOf
  cases ho : opcodeOf (opField w) with
  | none =>
    simp only [ho] at h ⊢
    cases h
    rfl
  | some o =>
    simp only [ho] at h ⊢
    by_cases hz : w &&& o.zmask ≠ 0
    · rw [if_pos hz] at h ⊢
      cases h
      rfl
    · rw [if_neg hz] at h
      cases h

/-- A word that decodes to a command raises nothing or BAD_INDEX. -/
theorem errorOf_of_command {w : Word} {i : Instr} (h : decode w = .command i) :
    errorOf w = none ∨ errorOf w = some .badIndex := by
  obtain ⟨o, h1, h2, rfl⟩ := (decode_eq_command _ _).1 h
  simp only [errorOf, (opcodeOf_eq_some _ _).2 h1, h2]
  rw [if_neg (by simp)]
  split_ifs
  · exact .inr rfl
  · exact .inr rfl
  · exact .inl rfl

/-- It raises BAD_INDEX exactly when its command's index is past its range (R200). -/
theorem errorOf_eq_badIndex_iff {w : Word} {i : Instr} (h : decode w = .command i) :
    errorOf w = some .badIndex ↔
      (∃ ch v, i = .load ch v ∧ 24 ≤ ch) ∨ (∃ k, i = .rdfb k ∧ 36 ≤ k) ∨ ∃ k, i = .rdch k ∧ 24 ≤ k := by
  obtain ⟨o, h1, h2, rfl⟩ := (decode_eq_command _ _).1 h
  simp only [errorOf, (opcodeOf_eq_some _ _).2 h1]
  cases o <;> simp_all [Opcode.command]

end Sys2Proof.Machine
end

