-- ==== Sys2Proof/Laws/Frame.lean ====
section
/-! SUPPORT. The byte formula as arithmetic and as bits, and which channels each frame byte is made of. -/

namespace Sys2Proof.Machine

/-! ## The three bytes of a pair -/

theorem byteHi_toNat (first : Nat) : (byteHi first).toNat = first % 256 := by
  have h : first &&& 0xFF = first % 2 ^ 8 := Nat.and_two_pow_sub_one_eq_mod first 8
  rw [byteHi, h, BitVec.toNat_ofNat]
  omega

theorem byteMid_toNat (first second : Nat) :
    (byteMid first second).toNat = first / 256 % 16 * 16 + second % 16 := by
  have h1 : (first >>> 8) &&& 0xF = (first >>> 8) % 2 ^ 4 := Nat.and_two_pow_sub_one_eq_mod _ 4
  have h2 : second &&& 0xF = second % 2 ^ 4 := Nat.and_two_pow_sub_one_eq_mod second 4
  rw [byteMid, h1, h2, BitVec.toNat_ofNat, ← Nat.shiftLeft_add_eq_or_of_lt (Nat.mod_lt _ (by decide))]
  simp only [Nat.shiftLeft_eq, Nat.shiftRight_eq_div_pow]
  omega

theorem byteLo_toNat (second : Nat) : (byteLo second).toNat = second / 16 % 256 := by
  have h : (second &&& 0xFF0) >>> 4 = (second >>> 4) &&& 0xFF := by
    rw [Nat.shiftRight_and_distrib, show (0xFF0 >>> 4 : Nat) = 0xFF from rfl]
  have h8 : (second >>> 4) &&& 0xFF = (second >>> 4) % 2 ^ 8 := Nat.and_two_pow_sub_one_eq_mod _ 8
  rw [byteLo, h, h8, BitVec.toNat_ofNat, Nat.shiftRight_eq_div_pow]
  omega

/-! ## The bytes of a frame -/

@[simp] theorem encodeFrame_getElem (chs : Channels) (k : Nat) (h : k < 36) :
    (encodeFrame chs)[k] = frameByte chs k := by
  simp [encodeFrame]

theorem frameByte_hi (chs : Channels) (q : Nat) (hq : q < 12) :
    frameByte chs (3 * q + 2) = byteHi chs[2 * q + 1].toNat := by
  have hp : pairOfByte (3 * q + 2) = 11 - q := by unfold pairOfByte; omega
  have hi : 3 * q + 2 = windowHi (11 - q) := by unfold windowHi; omega
  have hc : 23 - 2 * (11 - q) = 2 * q + 1 := by omega
  simp only [frameByte, hp, hc, ← hi, if_true]

theorem frameByte_mid (chs : Channels) (q : Nat) (hq : q < 12) :
    frameByte chs (3 * q + 1) = byteMid chs[2 * q + 1].toNat chs[2 * q].toNat := by
  have hp : pairOfByte (3 * q + 1) = 11 - q := by unfold pairOfByte; omega
  have hi : ¬ 3 * q + 1 = windowHi (11 - q) := by unfold windowHi; omega
  have hm : 3 * q + 1 = windowHi (11 - q) - 1 := by unfold windowHi; omega
  have hc : 23 - 2 * (11 - q) = 2 * q + 1 := by omega
  have hc' : 22 - 2 * (11 - q) = 2 * q := by omega
  simp only [frameByte, hp, hc, hc', if_neg hi, ← hm, if_true]

theorem frameByte_lo (chs : Channels) (q : Nat) (hq : q < 12) :
    frameByte chs (3 * q) = byteLo chs[2 * q].toNat := by
  have hp : pairOfByte (3 * q) = 11 - q := by unfold pairOfByte; omega
  have hi : ¬ 3 * q = windowHi (11 - q) := by unfold windowHi; omega
  have hm : ¬ 3 * q = windowHi (11 - q) - 1 := by unfold windowHi; omega
  have hc' : 22 - 2 * (11 - q) = 2 * q := by omega
  simp only [frameByte, hp, hc', if_neg hi, if_neg hm]

@[simp] theorem txOrder_getElem (fb : Frame) (j : Nat) (h : j < 36) : (txOrder fb)[j] = fb[35 - j] := by
  simp [txOrder]

@[simp] theorem decodeFrame_getElem (fb : Frame) (k : Nat) (h : k < 24) :
    (decodeFrame fb)[k] = channelOfFrame fb ⟨k, h⟩ := by
  simp [decodeFrame]

theorem channelOfFrame_odd (fb : Frame) (q : Nat) (hq : q < 12) (h : 2 * q + 1 < 24) :
    channelOfFrame fb ⟨2 * q + 1, h⟩ = fb[3 * q + 1].extractLsb' 4 4 ++ fb[3 * q + 2] := by
  have h1 : (2 * q + 1) % 2 = 1 := by omega
  have h2 : (2 * q + 1) / 2 = q := by omega
  simp only [channelOfFrame, h1, h2, if_true]

theorem channelOfFrame_even (fb : Frame) (q : Nat) (hq : q < 12) (h : 2 * q < 24) :
    channelOfFrame fb ⟨2 * q, h⟩ = fb[3 * q] ++ fb[3 * q + 1].extractLsb' 0 4 := by
  have h1 : ¬ (2 * q) % 2 = 1 := by omega
  have h2 : 2 * q / 2 = q := by omega
  simp only [channelOfFrame, if_neg h1, h2]

end Sys2Proof.Machine
end

