-- ==== Sys2Proof/Laws/PerInstr.lean ====
section
/-! SUPPORT. Statements about every command as syntax, one lemma per constructor.

Family `OpcodeField`: the field OP of a command's word is the number of its opcode, and the opcode map of R74 reads it
back. -/

namespace Sys2Proof.Laws.OpcodeField

/-- The word of `i` carries the opcode of `i` in OP. -/
def Statement (i : Instr) : Prop :=
  opField (encode i) = i.opcode.code.toNat ∧ opcodeOf (opField (encode i)) = some i.opcode

/-- The one argument behind every case. -/
theorem of_instr (i : Instr) : Statement i := by
  have hv : (i.val % 65536).toNat < 65536 := by omega
  have h : opField (encode i) = i.opcode.code.toNat := by
    rw [opField_eq, encode_toNat]
    omega
  exact ⟨h, by rw [h, opcodeOf_code]⟩

theorem nop : Statement .nop := of_instr _
theorem clear : Statement .clear := of_instr _
theorem load (ch : Nat) (val : Int) : Statement (.load ch val) := of_instr _
theorem push (val : Int) : Statement (.push val) := of_instr _
theorem encode : Statement .encode := of_instr _
theorem xmit : Statement .xmit := of_instr _
theorem rdfb (byte : Nat) : Statement (.rdfb byte) := of_instr _
theorem rdch (ch : Nat) : Statement (.rdch ch) := of_instr _
theorem rdstat : Statement .rdstat := of_instr _
theorem rderr : Statement .rderr := of_instr _
theorem clrstat : Statement .clrstat := of_instr _

end Sys2Proof.Laws.OpcodeField
end

