-- ==== Sys2Proof/Tests/Slice0.lean ====
section
/-! SUPPORT. Tests: every expected value is the spec's own (the rule or vector of 95_test_vectors.md is named), none is
the model's answer. After them, for each obligation with hypotheses, a witness that meets them, clause by clause at the
ends of the ranges. -/

namespace Sys2Proof.Tests

open Sys2Proof Sys2Proof.Machine

/-! ## Helpers -/

/-- The state after one step with the word `w`, none where the step stops. -/
def after (s : State) (w : Word) : Option State :=
  match step (s.offer w) with
  | .next t => some t
  | .fault _ => none
  | .refused _ => none

/-- The reset state with another block. -/
def withBlock (b : Block) : State := { State.reset with block := b }

/-- Channels from a list of numbers, 0 past its end. -/
def chansOf (vs : List Nat) : Channels :=
  ⟨((List.range 24).map fun k => BitVec.ofNat 12 (vs.getD k 0)).toArray, by simp⟩

/-- The bytes of a frame as numbers, in index order. -/
def bytesOf (fb : Frame) : List Nat := fb.toList.map BitVec.toNat

/-- The channels of vector T5. -/
def t5Channels : Channels := chansOf
  [0x000, 0x111, 0x222, 0x333, 0x444, 0x555, 0x666, 0x777, 0x888, 0x999, 0xAAA, 0xBBB, 0xCCC, 0xDDD, 0xEEE, 0xFFF,
   0x110, 0x221, 0x332, 0x443, 0x554, 0x665, 0x776, 0x887]

/-- The frame of vector T5, in index order. -/
def t5Frame : List Nat :=
  [0x00, 0x10, 0x11, 0x22, 0x32, 0x33, 0x44, 0x54, 0x55, 0x66, 0x76, 0x77, 0x88, 0x98, 0x99, 0xAA, 0xBA, 0xBB,
   0xCC, 0xDC, 0xDD, 0xEE, 0xFE, 0xFF, 0x11, 0x20, 0x21, 0x33, 0x42, 0x43, 0x55, 0x64, 0x65, 0x77, 0x86, 0x87]

/-! ## Well-formedness: each check refuses an ill-formed term -/

/-- `ch` takes 0 to 63, `val` -32768 to 32767 (R84). -/
theorem test_wf_load : (Instr.load 63 (-32768)).wf = true ∧ (Instr.load 64 0).wf = false ∧
    (Instr.load 0 32768).wf = false ∧ (Instr.load 0 (-32769)).wf = false := by decide

theorem test_wf_push : (Instr.push 32767).wf = true ∧ (Instr.push 32768).wf = false ∧
    (Instr.push (-32769)).wf = false := by decide

theorem test_wf_rdfb : (Instr.rdfb 63).wf = true ∧ (Instr.rdfb 64).wf = false := by decide

theorem test_wf_rdch : (Instr.rdch 63).wf = true ∧ (Instr.rdch 64).wf = false := by decide

/-! ## Decoding: words written out field by field, OP, IDX, RSV, VAL (R71, R74) -/

theorem test_decode_nop : decode 0b0000_000000_000000_0000000000000000 = .command .nop := by decide

theorem test_decode_clear : decode 0b0001_000000_000000_0000000000000000 = .command .clear := by decide

/-- `LOAD 5, -5` (R104), and IDX and VAL at their ends. -/
theorem test_decode_load :
    decode 0b0010_000101_000000_1111111111111011 = .command (.load 5 (-5)) ∧
    decode 0b0010_111111_000000_1000000000000000 = .command (.load 63 (-32768)) ∧
    decode 0b0010_100000_000000_0111111111111111 = .command (.load 32 32767) := by decide

/-- `PUSH 5000` (R105), and VAL at its ends. -/
theorem test_decode_push :
    decode 0b0011_000000_000000_0001001110001000 = .command (.push 5000) ∧
    decode 0b0011_000000_000000_1000000000000000 = .command (.push (-32768)) := by decide

theorem test_decode_encode : decode 0b0100_000000_000000_0000000000000000 = .command .encode := by decide

theorem test_decode_xmit : decode 0b0101_000000_000000_0000000000000000 = .command .xmit := by decide

/-- `RDFB 35` (R161) and a last index. -/
theorem test_decode_rdfb :
    decode 0b0110_100011_000000_0000000000000000 = .command (.rdfb 35) ∧
    decode 0b0110_111111_000000_0000000000000000 = .command (.rdfb 63) := by decide

/-- `RDCH 1` (P1). -/
theorem test_decode_rdch :
    decode 0b0111_000001_000000_0000000000000000 = .command (.rdch 1) ∧
    decode 0b0111_010111_000000_0000000000000000 = .command (.rdch 23) := by decide

theorem test_decode_rdstat : decode 0b1000_000000_000000_0000000000000000 = .command .rdstat := by decide

theorem test_decode_rderr : decode 0b1001_000000_000000_0000000000000000 = .command .rderr := by decide

theorem test_decode_clrstat : decode 0b1010_000000_000000_0000000000000000 = .command .clrstat := by decide

/-- The opcodes 0xB to 0xF spell no command, whatever the other fields hold (R76). -/
theorem test_decode_reserved_opcodes :
    ([0xB0000000, 0xC0000000, 0xD0000001, 0xE0000000, 0xFFFFFFFF] : List Word).all
      (fun w => decide (decode w = .malformed .illegalOpcode)) = true := by decide

/-- One bit set in a required-zero field of each opcode (R75, R77; T8). -/
theorem test_decode_reserved_fields :
    ([0x00000001, 0x18000000, 0x20010000, 0x30400000, 0x40008000, 0x5F000000, 0x60200000, 0x60000001, 0x70000005,
      0x8000FFFF, 0x90000001, 0xA0000001] : List Word).all
      (fun w => decide (decode w = .malformed .reservedField)) = true := by decide

/-- The encoder's words, from the table of R84 and the vectors V5, T1 and T8. -/
theorem test_encode :
    encode .nop = 0x00000000 ∧ encode .clear = 0x10000000 ∧ encode (.load 7 (-5)) = 0x21C0FFFB ∧
    encode (.load 24 1) = 0x26000001 ∧ encode (.push (-5)) = 0x3000FFFB ∧ encode .encode = 0x40000000 ∧
    encode .xmit = 0x50000000 ∧ encode (.rdfb 36) = 0x69000000 ∧ encode (.rdch 1) = 0x70400000 ∧
    encode .rdstat = 0x80000000 ∧ encode .rderr = 0x90000000 ∧ encode .clrstat = 0xA0000000 := by decide

/-- The opcode table's words, and a row cut to fewer bits (the bits above are 0). -/
theorem test_decodeTableWord :
    decodeTableWord 32 0x2140FFFB = some (.load 5 (-5)) ∧ decodeTableWord 32 0xB0000000 = none ∧
    decodeTableWord 16 0xFFFF0000 = some .nop := by decide

/-! ## Clamping and the frame as functions -/

/-- R100: `clamp12(4096) = 4095, not 0`, and the bounds. -/
theorem test_clamp12 : clamp12 (-1) = 0 ∧ clamp12 0 = 0 ∧ clamp12 4095 = 4095 ∧ clamp12 4096 = 4095 := by decide

/-- T2, P4 of 93_implementation_defined.md: 70000, -100000 and 65541 saturate. -/
theorem test_sat16 : sat16 70000 = 32767 ∧ sat16 (-100000) = -32768 ∧ sat16 65541 = 32767 := by decide

/-- V7. -/
theorem test_window : window 0 = (35, 34, 33) ∧ window 11 = (2, 1, 0) := by decide

/-- T5, all 36 bytes. -/
theorem test_encodeFrame_t5 : bytesOf (encodeFrame t5Channels) = t5Frame := by decide

/-- V3 (corrected by C1): channel 0 alone. -/
theorem test_encodeFrame_channel_0 :
    bytesOf (encodeFrame (chansOf [4095])) = 0xFF :: 0x0F :: List.replicate 34 0 := by decide

/-- V8: the inverse recovers T5's channels from T5's bytes. -/
theorem test_decodeFrame_t5 : decodeFrame (encodeFrame t5Channels) = t5Channels := by decide

/-- T6: one channel bit, and the one stream position where it falls. -/
theorem test_stream_positions :
    (streamBit (encodeFrame (chansOf (List.replicate 23 0 ++ [0x001]))) 7 = true) ∧
    (streamBit (encodeFrame (chansOf (List.replicate 23 0 ++ [0x800]))) 8 = true) ∧
    (streamBit (encodeFrame (chansOf (List.replicate 22 0 ++ [0x001]))) 15 = true) ∧
    (streamBit (encodeFrame (chansOf (List.replicate 22 0 ++ [0x800]))) 16 = true) ∧
    (streamBit (encodeFrame (chansOf [0, 0x001])) 271 = true) ∧
    (streamBit (encodeFrame (chansOf [0, 0x800])) 272 = true) ∧
    (streamBit (encodeFrame (chansOf [0x001])) 279 = true) ∧
    (streamBit (encodeFrame (chansOf [0x800])) 280 = true) := by decide

/-! ## One step of each command -/

/-- R102: nothing changes but the completion. -/
theorem test_nop : after State.reset 0x00000000 = some { State.reset with completions := [.ok] } := by decide

/-- R103: CLEAR from a full input list. -/
theorem test_clear :
    (after (withBlock { Block.reset with ch := t5Channels, wptr := 24, ovf := true }) 0x10000000).map State.block =
      some { Block.reset with dirty := true, ovf := true } := by decide

/-- T1: channel 7, STATUS. -/
theorem test_load_clamp_table :
    (([0x21C08000, 0x21C0FFFB, 0x21C0FFFF, 0x21C00000, 0x21C00001, 0x21C00FFF, 0x21C01000, 0x21C01388,
        0x21C07FFF] : List Word).map
      fun w => (after State.reset w).map fun t => (t.block.ch[7].toNat, t.block.status.toNat)) =
      [some (0, 5), some (0, 5), some (0, 5), some (0, 1), some (1, 1), some (4095, 1), some (4095, 9),
        some (4095, 9), some (4095, 9)] := by decide

/-- P2: LOAD 23 and then LOAD 22, the other channels kept. -/
theorem test_load_keeps_channels :
    ((after (withBlock { Block.reset with ch := t5Channels, wptr := 7 }) 0x25C00123).map fun t =>
      (t.block.ch[23].toNat, t.block.ch[22].toNat, t.block.ch[0].toNat, t.block.wptr.val)) =
      some (0x123, 0x776, 0x000, 7) := by decide

/-- R105: the 24th PUSH writes CH[23] and leaves WPTR = 24. -/
theorem test_push_last :
    ((after (withBlock { Block.reset with wptr := 23 }) 0x30001388).map fun t =>
      (t.block.ch[23].toNat, t.block.ch[0].toNat, t.block.status.toNat, t.completions)) =
      some (4095, 0, 0x00180009, [.ok]) := by decide

/-- P3: the 25th PUSH only sets OVF, even of a value out of range (R105). -/
theorem test_push_ignored :
    ((after (withBlock { Block.reset with wptr := 24, dirty := true }) 0x3000FFFF).map fun t =>
      (t.block.ch == Block.reset.ch, t.block.status.toNat, t.completions)) =
      some (true, 0x00180011, [.ok]) := by decide

/-- T4: ENCODE of CH[k] = k, all 36 bytes, DIRTY cleared and the rest kept. -/
theorem test_encode_t4 :
    ((after (withBlock { Block.reset with ch := chansOf (List.range 24), wptr := 5, dirty := true }) 0x40000000).map
      fun t => (bytesOf t.block.fb, t.block.status.toNat)) =
      some ([0x00, 0x00, 0x01, 0x00, 0x02, 0x03, 0x00, 0x04, 0x05, 0x00, 0x06, 0x07, 0x00, 0x08, 0x09, 0x00, 0x0A,
        0x0B, 0x00, 0x0C, 0x0D, 0x00, 0x0E, 0x0F, 0x01, 0x00, 0x11, 0x01, 0x02, 0x13, 0x01, 0x04, 0x15, 0x01, 0x06,
        0x17], 0x00050000) := by decide

/-- T3: the asymmetric pair, where the formula and the prose differ (C2). -/
theorem test_encode_t3 :
    ((after (withBlock { Block.reset with ch := chansOf (List.replicate 22 0 ++ [0x456, 0x123]) }) 0x40000000).map
      fun t => bytesOf t.block.fb) = some (List.replicate 33 0 ++ [0x45, 0x16, 0x23]) := by decide

/-- P1: XMIT's 36 bytes in transmission order, 31 zeros and then 03 12 FF F0 00; FB kept, one completion. -/
theorem test_xmit :
    ((after (withBlock { Block.reset with fb := encodeFrame (chansOf [0, 4095, 0x123]) }) 0x50000000).map fun t =>
      (t.frames.map bytesOf, t.completions)) =
      some ([List.replicate 31 0 ++ [0x03, 0x12, 0xFF, 0xF0, 0x00]], [.ok]) := by decide

/-- R160: XMIT with IDX set is RESERVED_FIELD and emits nothing (T8). -/
theorem test_xmit_malformed :
    ((after State.reset 0x5F000000).map fun t => (t.frames, t.completions, t.block.status.toNat, t.block.errword)) =
      some ([], [.error .reservedField], 0x00000202, 0x5F000000) := by decide

/-- P1: RDFB 1 of the latched frame. -/
theorem test_rdfb :
    ((after (withBlock { Block.reset with fb := encodeFrame (chansOf [0, 4095, 0x123]) }) 0x60400000).map
      State.completions) = some [.okData 0x000000F0] := by decide

/-- T8: RDFB 36. -/
theorem test_rdfb_bad_index :
    ((after State.reset 0x69000000).map fun t => (t.completions, t.block.status.toNat, t.block.errword)) =
      some ([.error .badIndex], 0x00000302, 0x69000000) := by decide

/-- P1: RDCH 1. -/
theorem test_rdch :
    ((after (withBlock { Block.reset with ch := chansOf [0, 4095, 0x123] }) 0x70400000).map State.completions) =
      some [.okData 0x00000FFF] := by decide

/-- T8, R58: LOAD 24 and RDCH 24 (its word by R162's encoding) raise BAD_INDEX. -/
theorem test_bad_index :
    (([0x26000001, 0x76000000] : List Word).map fun w => (after State.reset w).map fun t =>
      (t.completions, t.block.status.toNat, t.block.errword)) =
      [some ([.error .badIndex], 0x00000302, 0x26000001),
        some ([.error .badIndex], 0x00000302, 0x76000000)] := by decide

/-- R163: 25 PUSHes after a CLEAR: WPTR = 24, OVF = 1, DIRTY = 1. -/
theorem test_rdstat :
    ((after (withBlock { Block.reset with wptr := 24, ovf := true, dirty := true }) 0x80000000).map
      State.completions) = some [.okData 0x00180011] := by decide

/-- R163: a malformed RDSTAT returns no data; the status it sets is that of T8. -/
theorem test_rdstat_malformed :
    ((after State.reset 0x8000FFFF).map fun t => (t.completions, t.block.status.toNat)) =
      some ([.error .reservedField], 0x00000202) := by decide

/-- R164: the word of the first error. -/
theorem test_rderr :
    ((after (withBlock { Block.reset with err := true, cause := .badIndex, errword := 0x26000001 }) 0x90000000).map
      State.completions) = some [.okData 0x26000001] := by decide

/-- P4: CLRSTAT brings back the reset state when no command wrote CH, FB or WPTR. -/
theorem test_clrstat :
    ((after (withBlock { Block.reset with
        err := true, cause := .badIndex, errword := 0x26000001, clampLo := true, clampHi := true, ovf := true })
      0xA0000000).map State.block) = some Block.reset := by decide

/-- P4: a malformed CLRSTAT clears nothing and completes with its own cause. -/
theorem test_clrstat_malformed :
    ((after (withBlock { Block.reset with err := true, cause := .badIndex, errword := 0x26000001 }) 0xA0000001).map
      fun t => (t.completions, t.block.status.toNat, t.block.errword)) =
      some ([.error .reservedField], 0x00000302, 0x26000001) := by decide

/-- P4: an illegal opcode while ERR = 1: CAUSE and ERRWORD stay, the completion is its own. -/
theorem test_second_error :
    ((after (withBlock { Block.reset with err := true, cause := .badIndex, errword := 0x26000001 }) 0xB0000000).map
      fun t => (t.completions, t.block.status.toNat, t.block.errword)) =
      some ([.error .illegalOpcode], 0x00000302, 0x26000001) := by decide

/-- T8: an illegal opcode; and a reserved bit that takes priority over an index past its range (R203). -/
theorem test_malformed_words :
    (([0xFFFFFFFF, 0x2E010000] : List Word).map fun w => (after State.reset w).map fun t =>
      (t.completions, t.block.status.toNat, t.block.errword)) =
      [some ([.error .illegalOpcode], 0x00000102, 0xFFFFFFFF),
        some ([.error .reservedField], 0x00000202, 0x2E010000)] := by decide

/-! ## The assembler (R84, R85; T2 and P1) -/

theorem test_assemble_load : assembleLine "  load 5 , -5 ".toList = some [0x2140FFFB] := by decide

theorem test_assemble_hex : assembleLine "PUSH 0x123".toList = some [0x30000123] ∧
    assembleLine "PUSH 0xFFFB".toList = some [0x3000FFFB] := by decide

/-- An operand that does not fit its field is refused; an index past its range assembles. -/
theorem test_assemble_refuses : assembleLine "LOAD 64, 0".toList = none ∧
    assembleLine "PUSH 32768".toList = none ∧ assembleLine "PUSH 0x10000".toList = none ∧
    assembleLine "LOAD 24, 1".toList = some [0x26000001] := by decide

theorem test_assemble_word : assembleLine ".word 0xB0000000".toList = some [0xB0000000] := by decide

theorem test_assemble_pushi : assembleLine "PUSHI 70000".toList = some [0x30007FFF] ∧
    assembleLine "PUSHI -100000".toList = some [0x30008000] := by decide

/-- P1: the list and the frame. -/
theorem test_assemble_loadlist :
    assembleLine "LOADLIST -5, 5000, 0x123".toList = some [0x10000000, 0x3000FFFB, 0x30001388, 0x30000123] ∧
    assembleLine "LOADLIST".toList = some [0x10000000] ∧
    assembleLine "FRAME".toList = some [0x40000000, 0x50000000] := by decide

/-! ## Witnesses: states and operands that meet the hypotheses of the obligations -/

/-- A state whose first error is recorded: LOAD 24 (P4). -/
def errState : State := withBlock { Block.reset with err := true, cause := .badIndex, errword := 0x26000001 }

theorem witness_DecodeOfEncodeIsIdentity :
    (Instr.load 63 (-32768)).WellFormed ∧ (Instr.load 0 32767).WellFormed ∧ (Instr.push (-32768)).WellFormed ∧
    (Instr.rdfb 63).WellFormed ∧ (Instr.rdch 0).WellFormed ∧ Instr.clrstat.WellFormed := by decide

theorem witness_EncodeOfDecodeIsIdentity :
    decode 0x2FC08000 = .command (.load 63 (-32768)) ∧ decode 0xA0000000 = .command .clrstat := by decide

/-- Both sides of the equivalence hold for the last word of a row, and neither for its neighbour. -/
theorem witness_WordSelectsCommandByMaskAndMatch :
    decode 0x6FC00000 = .command (.rdfb 63) ∧ (0x6FC00000 : Word) &&& 0xF03FFFFF = 0x60000000 ∧
    decode 0x6FC00001 = .malformed .reservedField ∧ (0x6FC00001 : Word) &&& 0xF03FFFFF ≠ 0x60000000 := by decide

/-- One word for each clause: OP 0xB and 0xF; OP 0xA with a reserved bit; OP 0xA without; a word that raises. -/
theorem witness_EveryWordIsACommandOrOneError :
    (0xB ≤ opField 0xB0000000 ∧ 0xB ≤ opField 0xFFFFFFFF) ∧
    (opcodeOf (opField 0xA0000001) = some .clrstat ∧ (0xA0000001 : Word) &&& Opcode.clrstat.zmask ≠ 0) ∧
    (opcodeOf (opField 0xA0000000) = some .clrstat ∧ (0xA0000000 : Word) &&& Opcode.clrstat.zmask = 0) ∧
    decode 0x00000001 = .malformed .reservedField ∧ decode 0xB0000000 = .malformed .illegalOpcode := by decide

theorem witness_LinkBytesRoundTrip : (Instr.load 63 (-32768)).WellFormed := by decide

theorem witness_StepRunsTheDecodedCommand :
    decode 0x00000000 = .command .nop ∧ decodeTableWord 32 0xA0000000 = some .clrstat := by decide

theorem witness_IdleStepHoldsTheState : State.reset.inputs = [] := rfl

/-- One word for each clause, each at an end of its range: OP 0xB and 0xF; a reserved bit; LOAD 24 and 63; RDCH 24 and
63; RDFB 36 and 63. -/
theorem witness_ErroneousWordRecordsTheFirstError :
    (0xB ≤ opField 0xB0000000 ∧ 0xB ≤ opField 0xF0000000) ∧
    (opcodeOf (opField 0x00000001) = some .nop ∧ (0x00000001 : Word) &&& Opcode.nop.zmask ≠ 0) ∧
    (([0x26000000, 0x2FC0FFFF] : List Word).all fun w =>
      decide (opField w = 0x2 ∧ w &&& 0x003F0000 = 0 ∧ 24 ≤ idxField w)) = true ∧
    (([0x76000000, 0x7FC00000] : List Word).all fun w =>
      decide (opField w = 0x7 ∧ w &&& 0x003FFFFF = 0 ∧ 24 ≤ idxField w)) = true ∧
    (([0x69000000, 0x6FC00000] : List Word).all fun w =>
      decide (opField w = 0x6 ∧ w &&& 0x003FFFFF = 0 ∧ 36 ≤ idxField w)) = true := by decide

/-- A word for each error, with ERR = 0 and with ERR = 1; and a run with ERR = 1 that holds an error and a NOP. -/
theorem witness_FirstErrorIsKept :
    (errorOf 0xB0000000 = some .illegalOpcode ∧ errorOf 0x00000001 = some .reservedField ∧
      errorOf 0x26000001 = some .badIndex ∧ State.reset.block.err = false ∧ errState.block.err = true) ∧
    ∃ s t : State, s.block.err = true ∧ s.inputs.length = 2 ∧ NoResetNor 0xA0000000 s.inputs ∧
      runSteps 2 s = .next t :=
  ⟨by decide, { errState with inputs := [.command 0xB0000000, .command 0x00000000] }, _, rfl, rfl,
    ⟨by decide, by decide⟩, rfl⟩

/-- A word for each clause: an error; OP 6 and 9; OP 5 and 0xA; XMIT, and a word that is not XMIT. -/
theorem witness_OneCompletionPerCommand :
    errorOf 0x26000001 = some .badIndex ∧
    (errorOf 0x68C00000 = none ∧ 0x6 ≤ opField 0x68C00000 ∧ opField 0x68C00000 ≤ 0x9) ∧
    (errorOf 0x90000000 = none ∧ 0x6 ≤ opField 0x90000000 ∧ opField 0x90000000 ≤ 0x9) ∧
    (errorOf 0x50000000 = none ∧ opField 0x50000000 < 0x6) ∧
    (errorOf 0xA0000000 = none ∧ opField 0xA0000000 = 0xA) ∧
    (0x50000001 : Word) ≠ 0x50000000 := by decide

/-- A run of both of its inputs, and one that stops short of the second. -/
theorem witness_StepsNeverLookAhead :
    let xs : List Input := [.command 0x10000000, .reset]
    (2 ≤ xs.length ∧ ∃ t, runSteps 2 { State.reset with inputs := xs } = .next t) ∧
    1 ≤ xs.length ∧ ∃ t, runSteps 1 { State.reset with inputs := xs } = .next t :=
  ⟨⟨by decide, _, rfl⟩, by decide, _, rfl⟩

theorem witness_HostReachesTheBlockOnlyThroughInputs : Input.reset ∈ State.reset.offerReset.inputs.head? := by decide

/-- A word with the opcode that is not its command's word, at each end of the required-zero bits. -/
theorem witness_NopChangesNothing :
    opField 0x00000001 = 0x0 ∧ (0x00000001 : Word) ≠ 0 ∧ opField 0x0FFFFFFF = 0x0 := by decide

theorem witness_ClearZeroesTheChannels :
    opField 0x10000001 = 0x1 ∧ (0x10000001 : Word) ≠ 0x10000000 ∧ opField 0x1FFFFFFF = 0x1 := by decide

/-- Channel 22, 23, 24 and 63; values at their ends; a reserved bit. -/
theorem witness_LoadWritesOneChannel :
    (decode 0x25C0FFFF = .command (.load 23 (-1)) ∧ opField 0x25C0FFFF = 0x2) ∧
    (IdxFits 63 ∧ ValFits (-32768) ∧ ValFits 32767) ∧
    (opField 0x20010000 = 0x2 ∧ (0x20010000 : Word) &&& 0x003F0000 ≠ 0) ∧
    ((23 : Nat) < 24 ∧ (0 : Nat) < 24 ∧ (22 : Nat) < 24 ∧ (22 : Nat) ≠ 23) ∧
    (24 : Nat) ≤ 24 ∧ IdxFits 24 ∧ (24 : Nat) ≤ 63 := by decide

/-- WPTR = 0, 23 and 24; a reserved bit; values at their ends. -/
theorem witness_PushWritesTheNextChannel :
    decode 0x30008000 = .command (.push (-32768)) ∧ ValFits 32767 ∧
    (opField 0x30400000 = 0x3 ∧ (0x30400000 : Word) &&& 0x0FFF0000 ≠ 0) ∧
    (withBlock Block.reset).block.wptr.val < 24 ∧
    (withBlock { Block.reset with wptr := 23 }).block.wptr.val < 24 ∧
    (withBlock { Block.reset with wptr := 24 }).block.wptr.val = 24 := by decide

theorem witness_EncodeLatchesTheFrame :
    opField 0x40000001 = 0x4 ∧ (0x40000001 : Word) ≠ 0x40000000 ∧ opField 0x4FFFFFFF = 0x4 := by decide

theorem witness_XmitEmitsTheLatchedFrame :
    (opField 0x5F000000 = 0x5 ∧ (0x5F000000 : Word) ≠ 0x50000000) ∧ (35 : Nat) < 36 ∧ (287 : Nat) < 288 := by decide

/-- Index 35, 36 and 63; a reserved bit. -/
theorem witness_RdfbReadsOneFrameByte :
    decode 0x68C00000 = .command (.rdfb 35) ∧ IdxFits 63 ∧
    (opField 0x60000001 = 0x6 ∧ (0x60000001 : Word) &&& 0x003FFFFF ≠ 0) ∧
    (35 : Nat) < 36 ∧ (36 : Nat) ≤ 36 ∧ IdxFits 36 ∧ (36 : Nat) ≤ 63 := by decide

/-- Index 23, 24 and 63; a reserved bit. -/
theorem witness_RdchReadsOneChannel :
    decode 0x75C00000 = .command (.rdch 23) ∧ IdxFits 63 ∧
    (opField 0x70000005 = 0x7 ∧ (0x70000005 : Word) &&& 0x003FFFFF ≠ 0) ∧
    (23 : Nat) < 24 ∧ (24 : Nat) ≤ 24 ∧ IdxFits 24 ∧ (24 : Nat) ≤ 63 := by decide

theorem witness_RdstatReadsStatus : opField 0x8000FFFF = 0x8 ∧ (0x8000FFFF : Word) ≠ 0x80000000 := by decide

theorem witness_RderrReadsTheFirstErrorWord :
    (opField 0x90000001 = 0x9 ∧ (0x90000001 : Word) ≠ 0x90000000) ∧
    State.reset.block.ErrorRecordOk ∧ State.reset.block.err = false :=
  ⟨by decide, ⟨fun _ => ⟨rfl, rfl⟩, fun h => nomatch h⟩, rfl⟩

theorem witness_ClrstatClearsTheStickyStatus :
    opField 0xA0000001 = 0xA ∧ (0xA0000001 : Word) ≠ 0xA0000000 ∧ opField 0xAFFFFFFF = 0xA := by decide

/-- Each clause at its bounds. -/
theorem witness_NoteSetsTheClampFlag :
    (-1 : Int) < 0 ∧ (4096 : Int) > 4095 ∧ (0 : Int) ≤ 0 ∧ (0 : Int) ≤ 4095 ∧ (4095 : Int) ≤ 4095 := by decide

theorem witness_ClearThenPushesFillInOrder :
    (∀ v ∈ List.replicate 25 (32767 : Int), ValFits v) ∧ (∀ v ∈ [(-32768 : Int)], ValFits v) := by decide

theorem witness_PairBytesByTheFormula :
    (0 : Nat) < 36 ∧ (35 : Nat) < 36 ∧ (0 : Nat) < 12 ∧ (11 : Nat) < 12 := by decide

theorem witness_FrameInClosedForm : (0 : Nat) < 12 ∧ (11 : Nat) < 12 := by decide

/-- Channel 23 and the lower nibble of the byte it shares; channel 0 and the upper one. -/
theorem witness_ChannelReachesOnlyItsWindow :
    let outside := fun k j bit : Nat => k < 24 ∧ j < 36 ∧ bit < 8 ∧
      ¬ (k % 2 = 1 ∧ (j = 3 * (k / 2) + 2 ∨ j = 3 * (k / 2) + 1 ∧ 4 ≤ bit)) ∧
      ¬ (k % 2 = 0 ∧ (j = 3 * (k / 2) ∨ j = 3 * (k / 2) + 1 ∧ bit < 4))
    outside 23 34 3 ∧ outside 23 33 7 ∧ outside 0 1 4 ∧ outside 0 2 0 := by decide

theorem witness_EncodeFrameIsABijection : (0 : Nat) < 12 ∧ (11 : Nat) < 12 := by decide

theorem witness_StreamPositionsOfAPair : (11 : Nat) < 12 ∧ (7 : Nat) < 8 ∧ (3 : Nat) < 4 := by decide

/-- A fresh state and its step; and a state that is fresh because DIRTY = 1. -/
theorem witness_StepKeepsTheFrameFresh :
    (State.reset.block.Fresh ∧ ∃ t, step (State.reset.offer 0x10000000) = .next t) ∧
    (withBlock { Block.reset with ch := t5Channels, dirty := true }).block.Fresh :=
  ⟨⟨fun _ => by decide, _, rfl⟩, fun h => nomatch h⟩

/-- A state with an error recorded, and its step. -/
theorem witness_StepKeepsTheErrorRecord :
    (State.reset.block.ErrorRecordOk ∧ ∃ t, step (State.reset.offer 0x26000001) = .next t) ∧
    errState.block.ErrorRecordOk :=
  ⟨⟨⟨fun _ => ⟨rfl, rfl⟩, fun h => nomatch h⟩, _, rfl⟩,
    ⟨fun h => (nomatch h), fun _ => ⟨.badIndex, by decide, rfl⟩⟩⟩

/-- Two states with the same block and different inputs: every read answers alike. -/
theorem witness_EveryElementCanBeReadBack :
    ∃ s s' : State, s ≠ s' ∧ s.completions = s'.completions ∧
      ∀ i : Instr, ((∃ k, k < 24 ∧ i = .rdch k) ∨ (∃ k, k < 36 ∧ i = .rdfb k) ∨ i = .rdstat ∨ i = .rderr) →
        ∀ t t' : State, exec i s = .next t → exec i s' = .next t' → t.completions = t'.completions := by
  refine ⟨State.reset, State.reset.offerReset, by decide, rfl, ?_⟩
  intro i _ t t' h h'
  obtain ⟨u, hu, -, hx⟩ := exec_ignores_inputs i State.reset
  rw [h] at hu
  cases hu
  have h2 : exec i State.reset.offerReset = _ := hx [.reset]
  rw [h'] at h2
  cases h2
  rfl

/-- A step for every command word and every error; and a word or state for each branch: a LOAD and a PUSH that write, a
value on either side of the range, an ignored PUSH, and the words of the writers' opcodes that write nothing. -/
theorem witness_ElementsChangeOnlyByTheirWriters :
    (([0x00000000, 0x10000000, 0x2140FFFB, 0x30001388, 0x40000000, 0x50000000, 0x68C00000, 0x70400000, 0x80000000,
      0x90000000, 0xA0000000, 0xB0000000, 0x10000001, 0x26000001] : List Word).all
      fun w => (after State.reset w).isSome && (after errState w).isSome) = true ∧
    (errorOf 0x2140FFFB = none ∧ opField 0x2140FFFB = 0x2 ∧ valField 0x2140FFFB < 0) ∧
    (errorOf 0x30001388 = none ∧ opField 0x30001388 = 0x3 ∧ 4095 < valField 0x30001388 ∧
      (withBlock { Block.reset with wptr := 23 }).block.wptr.val < 24 ∧
      (after (withBlock { Block.reset with wptr := 24 }) 0x30001388).isSome = true) ∧
    (opField 0x10000001 = 0x1 ∧ errorOf 0x10000001 ≠ none) ∧ (opField 0x26000001 = 0x2 ∧ errorOf 0x26000001 ≠ none) := by
  decide

/-- Both steps of each clause, PUSH at WPTR = 22. -/
theorem witness_RepeatedCommands :
    (∃ t u : State, exec (.rdch 23) State.reset = .next t ∧ exec (.rdch 23) t = .next u) ∧
    (∃ t u : State, exec (.load 24 1) State.reset = .next t ∧ exec (.load 24 1) t = .next u) ∧
    (∃ s t u : State, s.block.wptr.val = 22 ∧ exec (.push 1) s = .next t ∧ exec (.push 1) t = .next u) ∧
    ∃ t u : State, exec .xmit State.reset = .next t ∧ exec .xmit t = .next u :=
  ⟨⟨_, _, rfl, rfl⟩, ⟨_, _, rfl, rfl⟩, ⟨withBlock { Block.reset with wptr := 22 }, _, _, rfl, rfl, rfl⟩,
    ⟨_, _, rfl, rfl⟩⟩

/-- Two states that agree on CH, FB and WPTR and differ in every flag. -/
theorem witness_FlagsDoNotAffectExecution :
    ∃ s s' t t' : State, s.block.ch = s'.block.ch ∧ s.block.fb = s'.block.fb ∧ s.block.wptr = s'.block.wptr ∧
      (s.block.dirty ≠ s'.block.dirty ∧ s.block.err ≠ s'.block.err ∧ s.block.clampLo ≠ s'.block.clampLo ∧
        s.block.clampHi ≠ s'.block.clampHi ∧ s.block.ovf ≠ s'.block.ovf) ∧
      exec (.push 5000) s = .next t ∧ exec (.push 5000) s' = .next t' :=
  ⟨State.reset, withBlock { Block.reset with
      dirty := true, err := true, cause := .badIndex, errword := 0x26000001, clampLo := true, clampHi := true,
      ovf := true }, _, _, rfl, rfl, rfl, by decide, rfl, rfl⟩

/-- A run that writes a channel and transmits, with neither ENCODE nor reset. -/
theorem witness_WithoutEncodeTheOldFrameIsSent :
    ∃ s t : State, s.inputs = [.command 0x25C00123, .command 0x50000000] ∧ NoResetNor 0x40000000 s.inputs ∧
      runSteps 2 s = .next t :=
  ⟨{ State.reset with inputs := [.command 0x25C00123, .command 0x50000000] }, _, rfl, ⟨by decide, by decide⟩, rfl⟩

/-- Operands at the ends of their ranges. -/
theorem witness_AssemblerSyntaxTable :
    parseIndex "63".toList = some 63 ∧ parseValue "-32768".toList = some (-32768) ∧
    parseIndex "0".toList = some 0 ∧ parseValue "0xFFFF".toList = some (-1) := by decide

theorem witness_AssemblerSpellsOnlyCommands :
    "setall".toList.map Char.toUpper ≠ ".WORD".toList ∧
    (assemble "setall".toList ["5000".toList]).map List.length = some 24 ∧
    assemble "rdfb".toList ["63".toList] = some [0x6FC00000] := by decide

theorem witness_PseudoInstructionExpansions :
    parseIndex "23".toList = some 23 ∧ parseInteger "-100000".toList = some (-100000) ∧
    ["70000".toList, "-5".toList].map parseInteger = [(70000 : Int), -5].map some := by decide

/-- Two instances, the second stepping, and the first another than it. -/
theorem witness_InstancesShareNothing :
    ([State.reset, errState] : System)[1]? = some errState ∧ (0 : Nat) ≠ 1 := ⟨rfl, by decide⟩

/-- The literals of 63 and of 64 with a leading zero, and one whose hexadecimal digits are letters of either case. -/
theorem witness_AssemblerReadsLiterals :
    "0x03F".toList.map Char.toUpper =
      "0X".toList ++ List.replicate 1 '0' ++ (Nat.toDigits 16 63).map Char.toUpper ∧
    "0x40".toList.map Char.toUpper =
      "0X".toList ++ List.replicate 0 '0' ++ (Nat.toDigits 16 64).map Char.toUpper ∧
    "0XfFfB".toList.map Char.toUpper =
      "0X".toList ++ List.replicate 0 '0' ++ (Nat.toDigits 16 65531).map Char.toUpper := by decide

/-- A line without operands and without a gap; and one with two operands among blanks. -/
theorem witness_AssemblerReadsLines :
    let pieces : List (List Char × List Char × List Char) := [([], ['5'], [' ']), ([' '], ['-', '5'], [])]
    ([] : List Char).all isBlank = true ∧ [' ', '\t'].all isBlank = true ∧ ['R', 'D'] ≠ [] ∧
    (∀ x ∈ ['R', 'D'], isBlank x = false) ∧ (pieces ≠ [] → [' ', '\t'] ≠ []) ∧
    ∀ p ∈ pieces, p.1.all isBlank = true ∧ p.2.2.all isBlank = true ∧ p.2.1 ≠ [] ∧
      ∀ x ∈ p.2.1, isBlank x = false ∧ x ≠ ',' := by
  simp [isBlank]

/-- The directive in either case, with no operand, with two, and with a number at each side of 2^32. -/
theorem witness_RawWordDirective :
    ".word".toList.map Char.toUpper = ".WORD".toList ∧ ".WORD".toList.map Char.toUpper = ".WORD".toList ∧
    ([] : List (List Char)).length ≠ 1 ∧ ["0x0".toList, "0x0".toList].length ≠ 1 ∧
    (0xFFFFFFFF : Nat) < 2 ^ 32 ∧ ¬ (0x100000000 : Nat) < 2 ^ 32 :=
  ⟨by decide, by decide, by decide, by decide, by norm_num, by norm_num⟩

/-- Each bound, the ends of the field, and past it. -/
theorem witness_IllFormedIndexRaisesBadIndex :
    (24 : Nat) ≤ 24 ∧ (24 : Nat) ≤ 63 ∧ (24 : Nat) ≤ 64 ∧ (36 : Nat) ≤ 36 ∧ (36 : Nat) ≤ 64 := by decide

end Sys2Proof.Tests
end

/-! SUPPORT and PROOFS. The family of the state: the frame stays fresh (R26), the layout of STATUS (R35), and
the status flags, which steer no command (R38). -/

namespace Sys2Proof.Machine

/-! ## R26: while DIRTY = 0, FB = encode(CH) -/

/-- While DIRTY = 1 the invariant of R26 asks nothing. -/
theorem Block.fresh_of_dirty {b : Block} (h : b.dirty = true) : b.Fresh := fun hd => by simp [h] at hd

/-- The invariant of R26 speaks of DIRTY, FB and CH alone. -/
theorem Block.Fresh.congr {b b' : Block} (h : b.Fresh) (hd : b'.dirty = b.dirty) (hf : b'.fb = b.fb)
    (hc : b'.ch = b.ch) : b'.Fresh := by
  unfold Block.Fresh
  rw [hd, hf, hc]
  exact h

theorem Block.latchFrame_fresh (b : Block) : b.latchFrame.Fresh := fun _ => rfl

theorem Block.reset_fresh : Block.reset.Fresh := fun _ => by decide

/-- A PUSH that writes sets DIRTY; an ignored PUSH touches neither DIRTY nor FB nor CH (R105). -/
theorem Block.Fresh.pushValue {b : Block} (h : b.Fresh) (v : Int) : (b.pushValue v).Fresh := by
  by_cases hw : b.wptr.val < 24
  · rw [Block.pushValue_of_lt b v hw]
    exact Block.fresh_of_dirty (Block.writeClamped_dirty b _ hw v)
  · rw [Block.pushValue_of_full b v (by omega)]
    exact h.congr rfl rfl rfl

theorem Block.Fresh.captureError {b : Block} (h : b.Fresh) (e : CmdError) (w : Word) : (b.captureError e w).Fresh :=
  h.congr (by simp) (by simp) (by simp)

/-- Every command keeps the invariant of R26: those that write CH set DIRTY, ENCODE latches, the others touch
neither DIRTY nor FB nor CH. -/
theorem exec_keeps_fresh {i : Instr} {s t : State} (hs : s.block.Fresh) (h : exec i s = .next t) :
    t.block.Fresh := by
  obtain hb | ⟨-, hb⟩ | ⟨ch, v, hc, -, hb⟩ | ⟨v, -, hb⟩ | ⟨-, hb⟩ | ⟨-, hb⟩ | ⟨-, hb⟩ :=
    exec_block_cases h <;> rw [hb]
  · exact hs
  · exact Block.fresh_of_dirty (Block.clearChannels_dirty _)
  · exact Block.fresh_of_dirty (Block.writeClamped_dirty _ _ hc v)
  · exact hs.pushValue v
  · exact Block.latchFrame_fresh _
  · exact hs.congr rfl rfl rfl
  · exact hs.captureError _ _

/-- Settles O41: the reset state is fresh, and each of the four things a step can do keeps it so. -/
theorem stepKeepsTheFrameFresh : Obligations.StepKeepsTheFrameFresh := by
  refine ⟨Block.reset_fresh, fun s t hs h => ?_⟩
  obtain ⟨-, rfl⟩ | ⟨_, -, rfl⟩ | ⟨w, _, e, -, -, rfl⟩ | ⟨_, rest, i, -, -, hx⟩ := step_cases h
  · exact hs
  · exact Block.reset_fresh
  · exact hs.captureError e w
  · exact exec_keeps_fresh (s := { s with inputs := rest }) hs hx

/-! ## R35: the STATUS view -/

theorem flagBit_getLsbD (f : Bool) (i : Nat) : (flagBit f).getLsbD i = (decide (i = 0) && f) := by
  cases f <;> simp [flagBit, BitVec.getLsbD_one]

/-- WPTR is below 32, so it has no bit past the five of its field (R27). -/
theorem Block.wptr_testBit_of_ge (b : Block) {i : Nat} (h : 5 ≤ i) : b.wptr.val.testBit i = false :=
  Nat.testBit_lt_two_pow (calc
    b.wptr.val < 2 ^ 5 := by omega
    _ ≤ 2 ^ i := Nat.pow_le_pow_right (by decide) h)

/-- Each bit of STATUS, by the elements the pseudocode of R35 ORs together. -/
theorem Block.status_getLsbD (b : Block) {i : Nat} (hi : i < 32) :
    b.status.getLsbD i =
      (decide (16 ≤ i) && b.wptr.val.testBit (i - 16) || decide (8 ≤ i) && b.cause.code.getLsbD (i - 8) ||
        decide (i = 4) && b.ovf || decide (i = 3) && b.clampHi || decide (i = 2) && b.clampLo ||
        decide (i = 1) && b.err || decide (i = 0) && b.dirty) := by
  have shifted (x : Word) (n : Nat) : (x <<< n).getLsbD i = (decide (n ≤ i) && x.getLsbD (i - n)) := by
    simp only [BitVec.getLsbD_shiftLeft, hi, decide_true, Bool.true_and, ← decide_not, Nat.not_lt]
  have shiftedFlag (f : Bool) (n : Nat) : (flagBit f <<< n).getLsbD i = (decide (i = n) && f) := by
    rw [shifted, flagBit_getLsbD, ← Bool.and_assoc, ← Bool.decide_and]
    congr 2
    exact propext (by omega)
  have h16 : i - 16 < 32 := by omega
  have h8 : i - 8 < 32 := by omega
  simp only [Block.status, BitVec.getLsbD_or, shiftedFlag, shifted, flagBit_getLsbD, BitVec.getLsbD_setWidth,
    BitVec.getLsbD_ofNat, h16, h8, decide_true, Bool.true_and]

theorem Block.status_flags (b : Block) :
    b.status.getLsbD 0 = b.dirty ∧ b.status.getLsbD 1 = b.err ∧ b.status.getLsbD 2 = b.clampLo ∧
    b.status.getLsbD 3 = b.clampHi ∧ b.status.getLsbD 4 = b.ovf := by
  refine ⟨?_, ?_, ?_, ?_, ?_⟩ <;> rw [b.status_getLsbD (by decide)] <;> simp

theorem Block.status_cause (b : Block) : b.status.extractLsb' 8 4 = b.cause.code := by
  refine BitVec.eq_of_getLsbD_eq fun i hi => ?_
  have hwptr : ¬ 16 ≤ 8 + i := by omega
  have hflag : 8 + i ≠ 4 ∧ 8 + i ≠ 3 ∧ 8 + i ≠ 2 ∧ 8 + i ≠ 1 := by omega
  rw [BitVec.getLsbD_extractLsb', b.status_getLsbD (by omega)]
  simp [hi, hwptr, hflag]

theorem Block.status_wptr (b : Block) : (b.status.extractLsb' 16 5).toNat = b.wptr.val := by
  have h : b.status.extractLsb' 16 5 = BitVec.ofNat 5 b.wptr.val := by
    refine BitVec.eq_of_getLsbD_eq fun i hi => ?_
    have hcause : b.cause.code.getLsbD (16 + i - 8) = false := BitVec.getLsbD_of_ge _ _ (by omega)
    have hflag : 16 + i ≠ 4 ∧ 16 + i ≠ 3 ∧ 16 + i ≠ 2 ∧ 16 + i ≠ 1 := by omega
    rw [BitVec.getLsbD_extractLsb', BitVec.getLsbD_ofNat, b.status_getLsbD (by omega), hcause]
    simp [hi, hflag]
  rw [h, BitVec.toNat_ofNat]
  omega

/-- A bit of STATUS that lies in none of the fields of R35 reads 0. -/
theorem Block.status_getLsbD_reserved (b : Block) {i : Nat} (h5 : 5 ≤ i) (hi : i < 32)
    (hcause : i < 8 ∨ 12 ≤ i) (hwptr : i < 16 ∨ 21 ≤ i) : b.status.getLsbD i = false := by
  have noWptr : (decide (16 ≤ i) && b.wptr.val.testBit (i - 16)) = false := by
    obtain h | h := hwptr
    · simp [h]
    · rw [b.wptr_testBit_of_ge (by omega), Bool.and_false]
  have noCause : (decide (8 ≤ i) && b.cause.code.getLsbD (i - 8)) = false := by
    obtain h | h := hcause
    · simp [h]
    · rw [BitVec.getLsbD_of_ge _ _ (by omega), Bool.and_false]
  have noFlag : i ≠ 4 ∧ i ≠ 3 ∧ i ≠ 2 ∧ i ≠ 1 ∧ i ≠ 0 := by omega
  rw [b.status_getLsbD hi, noWptr, noCause]
  simp [noFlag]

theorem Block.status_reserved (b : Block) :
    b.status.extractLsb' 5 3 = 0 ∧ b.status.extractLsb' 12 4 = 0 ∧ b.status.extractLsb' 21 11 = 0 := by
  refine ⟨?_, ?_, ?_⟩ <;> refine BitVec.eq_of_getLsbD_eq fun i hi => ?_
  all_goals
    rw [BitVec.getLsbD_extractLsb', b.status_getLsbD_reserved (by omega) (by omega) (by omega) (by omega)]
    simp

/-- Settles O33: each field read off the bits of STATUS. -/
theorem statusLayout : Obligations.StatusLayout := by
  refine ⟨by decide, fun b => ?_⟩
  obtain ⟨hdirty, herr, hlo, hhi, hovf⟩ := b.status_flags
  obtain ⟨hr5, hr12, hr21⟩ := b.status_reserved
  exact ⟨hdirty, herr, hlo, hhi, hovf, hr5, b.status_cause, hr12, b.status_wptr, hr21⟩

/-! ## R38: the flags do not steer a command -/

/-- The elements a command may read: two blocks hold the same CH, FB and WPTR, whatever their flags (R38). -/
structure Block.SameData (b b' : Block) : Prop where
  ch : b.ch = b'.ch
  fb : b.fb = b'.fb
  wptr : b.wptr = b'.wptr

theorem Block.SameData.writeClamped {b b' : Block} (h : b.SameData b') (k : Nat) (hk : k < 24) (v : Int) :
    (b.writeClamped k hk v).SameData (b'.writeClamped k hk v) :=
  ⟨by simp [h.ch], h.fb, h.wptr⟩

theorem Block.SameData.clearChannels {b b' : Block} (h : b.SameData b') :
    b.clearChannels.SameData b'.clearChannels :=
  ⟨rfl, h.fb, rfl⟩

theorem Block.SameData.pushValue {b b' : Block} (h : b.SameData b') (v : Int) :
    (b.pushValue v).SameData (b'.pushValue v) := by
  have hw : b'.wptr.val = b.wptr.val := congrArg Fin.val h.wptr.symm
  by_cases hlt : b.wptr.val < 24
  · rw [b.pushValue_of_lt v hlt, b'.pushValue_of_lt v (hw ▸ hlt)]
    exact ⟨by simp [h.ch, hw], h.fb, by simp [hw]⟩
  · rw [b.pushValue_of_full v (by omega), b'.pushValue_of_full v (by omega)]
    exact ⟨h.ch, h.fb, h.wptr⟩

theorem Block.SameData.latchFrame {b b' : Block} (h : b.SameData b') : b.latchFrame.SameData b'.latchFrame :=
  ⟨h.ch, congrArg encodeFrame h.ch, h.wptr⟩

theorem Block.SameData.clearStatus {b b' : Block} (h : b.SameData b') : b.clearStatus.SameData b'.clearStatus :=
  ⟨h.ch, h.fb, h.wptr⟩

theorem Block.SameData.captureError {b b' : Block} (h : b.SameData b') (e : CmdError) (w : Word) :
    (b.captureError e w).SameData (b'.captureError e w) :=
  ⟨by simp [h.ch], by simp [h.fb], by simp [h.wptr]⟩

/-- What R38 asks of one command run from `s` and from `s'`, ending in `t` and `t'`: the same CH, FB and WPTR, the
same frames emitted, and, where `answers` holds, the same completion. -/
structure SameEffect (answers : Prop) (s s' t t' : State) : Prop where
  data : t.block.SameData t'.block
  frames : ∃ fs, t.frames = s.frames ++ fs ∧ t'.frames = s'.frames ++ fs
  completions : answers → ∃ c, t.completions = s.completions ++ [c] ∧ t'.completions = s'.completions ++ [c]

section
variable {answers : Prop} (s s' : State) {b b' : Block}

theorem SameEffect.respond (h : b.SameData b') :
    SameEffect answers s s' (s.setBlock b).respond (s'.setBlock b').respond :=
  ⟨h, ⟨[], by simp⟩, fun _ => ⟨.ok, rfl, rfl⟩⟩

theorem SameEffect.respondData (h : s.block.SameData s'.block) {d d' : Word} (hd : answers → d = d') :
    SameEffect answers s s' (s.respondData d) (s'.respondData d') :=
  ⟨h, ⟨[], by simp⟩, fun ha => ⟨.okData d, rfl, by rw [hd ha]; rfl⟩⟩

theorem SameEffect.emit (h : s.block.SameData s'.block) {f f' : TxFrame} (hf : f = f') :
    SameEffect answers s s' (s.emit f).respond (s'.emit f').respond :=
  ⟨h, ⟨[f], rfl, by rw [hf]; rfl⟩, fun _ => ⟨.ok, rfl, rfl⟩⟩

theorem SameEffect.raiseCmdError (h : s.block.SameData s'.block) (e : CmdError) (w : Word) :
    SameEffect answers s s' (s.raiseCmdError e w) (s'.raiseCmdError e w) :=
  ⟨h.captureError e w, ⟨[], by simp⟩, fun _ => ⟨.error e, rfl, rfl⟩⟩

end

/-- R38 command by command. RDSTAT and RDERR alone answer from the flags. -/
theorem exec_sameEffect {i : Instr} {s s' t t' : State} (h : s.block.SameData s'.block)
    (ht : exec i s = .next t) (ht' : exec i s' = .next t') :
    SameEffect (i ≠ .rdstat ∧ i ≠ .rderr) s s' t t' := by
  cases i with
  | nop => cases ht; cases ht'; exact .respond s s' h
  | clear => cases ht; cases ht'; exact .respond s s' h.clearChannels
  | load ch val =>
    by_cases hc : ch < 24
    · rw [exec_load_of_lt _ ch val hc] at ht ht'
      cases ht; cases ht'
      exact .respond s s' (h.writeClamped ch hc val)
    · rw [exec_load_of_ge _ ch val (by omega)] at ht ht'
      cases ht; cases ht'
      exact .raiseCmdError s s' h _ _
  | push val => cases ht; cases ht'; exact .respond s s' (h.pushValue val)
  | encode => cases ht; cases ht'; exact .respond s s' h.latchFrame
  | xmit => cases ht; cases ht'; exact .emit s s' h (congrArg txOrder h.fb)
  | rdfb byte =>
    by_cases hk : byte < 36
    · rw [exec_rdfb_of_lt _ byte hk] at ht ht'
      cases ht; cases ht'
      exact .respondData s s' h fun _ => by rw [h.fb]
    · rw [exec_rdfb_of_ge _ byte (by omega)] at ht ht'
      cases ht; cases ht'
      exact .raiseCmdError s s' h _ _
  | rdch ch =>
    by_cases hc : ch < 24
    · rw [exec_rdch_of_lt _ ch hc] at ht ht'
      cases ht; cases ht'
      exact .respondData s s' h fun _ => by rw [h.ch]
    · rw [exec_rdch_of_ge _ ch (by omega)] at ht ht'
      cases ht; cases ht'
      exact .raiseCmdError s s' h _ _
  | rdstat => cases ht; cases ht'; exact .respondData s s' h fun hi => absurd rfl hi.1
  | rderr => cases ht; cases ht'; exact .respondData s s' h fun hi => absurd rfl hi.2
  | clrstat => cases ht; cases ht'; exact .respond s s' h.clearStatus

/-- Settles O46: both runs of the command have the same effect, case by case over the commands. -/
theorem flagsDoNotAffectExecution : Obligations.FlagsDoNotAffectExecution := by
  intro i s s' t t' hch hfb hwptr ht ht'
  obtain ⟨hdata, hframes, hcompletions⟩ := exec_sameEffect ⟨hch, hfb, hwptr⟩ ht ht'
  exact ⟨hdata.ch, hdata.fb, hdata.wptr, hframes, fun hstat herr => hcompletions ⟨hstat, herr⟩⟩

end Sys2Proof.Machine

/-! SUPPORT and PROOFS. The family of the memory: which commands are idempotent (R60), and block instances that share
nothing (R69). -/

namespace Sys2Proof.Machine

/-! ## R60: NOP and the reads -/

/-- NOP and the reads whose index is in range: the commands R60 says change no element. -/
def ReadsOnly (i : Instr) : Prop :=
  i = .nop ∨ i = .rdstat ∨ i = .rderr ∨ (∃ k, k < 36 ∧ i = .rdfb k) ∨ ∃ k, k < 24 ∧ i = .rdch k

/-- Such a command does one thing: it returns a completion that the block alone determines. -/
theorem exec_of_readsOnly {i : Instr} (h : ReadsOnly i) :
    ∃ answer : Block → Completion, ∀ s,
      exec i s = .next { s with completions := s.completions ++ [answer s.block] } := by
  obtain rfl | rfl | rfl | ⟨k, hk, rfl⟩ | ⟨k, hk, rfl⟩ := h
  · exact ⟨fun _ => .ok, exec_nop⟩
  · exact ⟨fun b => .okData b.status, exec_rdstat⟩
  · exact ⟨fun b => .okData b.errword, exec_rderr⟩
  · exact ⟨fun b => .okData (b.fb[k].setWidth 32), fun s => exec_rdfb_of_lt s k hk⟩
  · exact ⟨fun b => .okData (b.ch[k].setWidth 32), fun s => exec_rdch_of_lt s k hk⟩

/-! ## R60: the idempotent writes -/

theorem Block.writeClamped_writeClamped (b : Block) (k : Nat) (h : k < 24) (v : Int) :
    (b.writeClamped k h v).writeClamped k h v = b.writeClamped k h v := by
  simp [Block.writeClamped, Block.writeCh, Block.note]

theorem Block.clearChannels_clearChannels (b : Block) : b.clearChannels.clearChannels = b.clearChannels := rfl

theorem Block.latchFrame_latchFrame (b : Block) : b.latchFrame.latchFrame = b.latchFrame := rfl

theorem Block.clearStatus_clearStatus (b : Block) : b.clearStatus.clearStatus = b.clearStatus := rfl

/-- The first capture sets ERR, so the second changes nothing (R202). -/
theorem Block.captureError_captureError (b : Block) (e : CmdError) (w : Word) :
    (b.captureError e w).captureError e w = b.captureError e w :=
  Block.captureError_of_err (b.captureError_err e w) e w

/-- LOAD with the same operands is idempotent, with a bad index too. -/
theorem exec_load_twice {s t u : State} {ch : Nat} {v : Int}
    (ht : exec (.load ch v) s = .next t) (hu : exec (.load ch v) t = .next u) : u.block = t.block := by
  by_cases hc : ch < 24
  · rw [exec_load_of_lt _ ch v hc] at ht hu
    cases ht; cases hu
    exact s.block.writeClamped_writeClamped ch hc v
  · rw [exec_load_of_ge _ ch v (by omega)] at ht hu
    cases ht; cases hu
    exact s.block.captureError_captureError _ _

/-! ## R60: PUSH -/

theorem Block.pushValue_wptr_of_lt (b : Block) (v : Int) (h : b.wptr.val < 24) :
    (b.pushValue v).wptr.val = b.wptr.val + 1 := by
  rw [b.pushValue_of_lt v h]

/-- A PUSH below 24 moves WPTR on, so it leaves another block. -/
theorem Block.pushValue_ne_of_lt (b : Block) (v : Int) (h : b.wptr.val < 24) : b.pushValue v ≠ b := by
  intro heq
  have hw := b.pushValue_wptr_of_lt v h
  rw [heq] at hw
  omega

/-- Settles O45: the reads answer from a block they keep, each idempotent write is so on the block, a second PUSH
still finds WPTR below 24, and the second XMIT finds the FB of the first. -/
theorem repeatedCommands : Obligations.RepeatedCommands := by
  refine ⟨fun s t u i hi ht hu => ?reads, fun s t u i hi ht hu => ?writes, fun s t u v hw ht hu => ?push,
    fun s t u ht hu => ?xmit⟩
  case reads =>
    obtain ⟨answer, hexec⟩ := exec_of_readsOnly hi
    rw [hexec] at ht hu
    cases ht; cases hu
    exact ⟨rfl, rfl, answer s.block, rfl, rfl⟩
  case writes =>
    obtain rfl | rfl | rfl | ⟨ch, v, rfl⟩ := hi
    · cases ht; cases hu; exact s.block.latchFrame_latchFrame
    · cases ht; cases hu; exact s.block.clearChannels_clearChannels
    · cases ht; cases hu; exact s.block.clearStatus_clearStatus
    · exact exec_load_twice ht hu
  case push =>
    cases ht; cases hu
    have hw' : (s.block.pushValue v).wptr.val = s.block.wptr.val + 1 := s.block.pushValue_wptr_of_lt v (by omega)
    exact (s.block.pushValue v).pushValue_ne_of_lt v (by omega)
  case xmit =>
    cases ht; cases hu
    exact ⟨rfl, txOrder s.block.fb, rfl, rfl⟩

/-! ## R69: block instances -/

/-- A step always answers a next state: the block never stops (R201). -/
theorem step_answers (s : State) : ∃ t, step s = .next t := by
  by_cases h : s.inputs = []
  · exact ⟨s, step_of_no_input h⟩
  · obtain ⟨t, ht, -⟩ := step_with_later_inputs h
    exact ⟨t, ht⟩

theorem stepBlock_of_no_instance {sys : System} {k : Nat} (h : sys[k]? = none) : stepBlock sys k = .next sys := by
  simp only [stepBlock, h]

theorem stepBlock_of_step {sys : System} {k : Nat} {s t : State} (hk : sys[k]? = some s) (h : step s = .next t) :
    stepBlock sys k = .next (sys.set k t) := by
  simp only [stepBlock, hk, h]

/-- Settles O53: the step of number k sets entry k of the system to what its own step answers. -/
theorem instancesShareNothing : Obligations.InstancesShareNothing := by
  intro sys k
  match hk : sys[k]? with
  | none => exact ⟨sys, stepBlock_of_no_instance hk, rfl, fun _ _ => rfl, fun _ hs => nomatch hs⟩
  | some s =>
    obtain ⟨t, ht⟩ := step_answers s
    obtain ⟨hlt, -⟩ := List.getElem?_eq_some_iff.1 hk
    refine ⟨sys.set k t, stepBlock_of_step hk ht, List.length_set, fun j hj => List.getElem?_set_ne hj.symm,
      fun s' hs' => ?_⟩
    cases hs'
    exact ⟨t, ht, List.getElem?_set_self hlt⟩

end Sys2Proof.Machine

/-! SUPPORT and PROOFS. The family of the encoding: which words select a command (R75 to R77), what an erroneous word
does (R79, R201), and the one completion of every word (R83). -/

namespace Sys2Proof

/-! ## Words and their commands -/

theorem Opcode.command_wellFormed (o : Opcode) {idx : Nat} {val : Int} (hi : IdxFits idx) (hv : ValFits val) :
    (o.command idx val).WellFormed := by
  cases o <;> simp [Opcode.command, Instr.WellFormed, Instr.wf, hi, hv]

/-- A command is its opcode with its operands. -/
theorem Instr.opcode_command (i : Instr) : i.opcode.command i.idx i.val = i := by
  cases i <;> rfl

theorem valField_eq_zero_iff (w : Word) : valField w = 0 ↔ w.toNat % 2 ^ 16 = 0 := by
  rw [valField_eq]
  omega

/-- ZMASK by fields (R71, R75): no required-zero bit is set exactly when RSV is 0 and so is each operand field that
the command leaves unused. -/
theorem and_zmask_eq_zero_iff (w : Word) (o : Opcode) :
    w &&& o.zmask = 0 ↔
      w.toNat / 2 ^ 16 % 2 ^ 6 = 0 ∧ (o.command (idxField w) (valField w)).idx = idxField w ∧
      (o.command (idxField w) (valField w)).val = valField w := by
  have hv := valField_eq_zero_iff w
  have hi := idxField_eq w
  cases o <;>
    simp only [Opcode.zmask, Opcode.command, Instr.idx, Instr.val, and_mask_all, and_mask_rsv, and_mask_idx_rsv,
      and_mask_rsv_val, and_true, true_and] <;>
    omega

theorem decode_of_no_reserved_bits {w : Word} {o : Opcode} (ho : opField w = o.code.toNat) (hz : w &&& o.zmask = 0) :
    decode w = .command (o.command (idxField w) (valField w)) :=
  (decode_eq_command _ _).2 ⟨o, ho, hz, rfl⟩

/-- Every accepted word is the word of the well-formed command it decodes to. -/
theorem encode_of_decode {w : Word} {i : Instr} (h : decode w = .command i) : i.WellFormed ∧ encode i = w := by
  obtain ⟨o, ho, hz, rfl⟩ := (decode_eq_command _ _).1 h
  obtain ⟨hrsv, hidx, hval⟩ := (and_zmask_eq_zero_iff w o).1 hz
  refine ⟨o.command_wellFormed (idxField_le w) (valField_fits w), BitVec.eq_of_toNat_eq ?_⟩
  rw [encode_toNat, Opcode.command_opcode, ← ho, hidx, hval, opField_eq, idxField_eq, valField_eq]
  omega

/-- A well-formed command comes back from its word. -/
theorem decode_encode {i : Instr} (h : i.WellFormed) : decode (encode i) = .command i := by
  have hfields : i.opcode.command (idxField (encode i)) (valField (encode i)) = i := by
    rw [idxField_encode h, valField_encode h, i.opcode_command]
  have hrsv : (encode i).toNat / 2 ^ 16 % 2 ^ 6 = 0 := by
    rw [encode_toNat]
    omega
  have hz : encode i &&& i.opcode.zmask = 0 := by
    rw [and_zmask_eq_zero_iff, hfields]
    exact ⟨hrsv, (idxField_encode h).symm, (valField_encode h).symm⟩
  rw [decode_of_no_reserved_bits (Laws.OpcodeField.of_instr i).1 hz, hfields]

/-! ## R75: mask and match -/

/-- `match` of R75: OP in its place, all other bits 0. -/
def Opcode.matchWord (o : Opcode) : Word := o.code ++ (0 : BitVec 28)

/-- `fullmask` of R75: the bits of OP and the required-zero bits. -/
def Opcode.fullmask (o : Opcode) : Word := 0xF0000000 ||| o.zmask

/-- An opcode's row of the table of R75. -/
def Opcode.tableRow (o : Opcode) : Opcode × Word × Word × Word := (o, o.zmask, o.matchWord, o.fullmask)

/-- The bits of OP alone compare the opcode. -/
theorem and_opMask_eq_matchWord_iff (w : Word) (o : Opcode) :
    w &&& 0xF0000000 = o.matchWord ↔ opField w = o.code.toNat := by
  have hw : w.extractLsb' 28 4 ++ w.extractLsb' 0 28 = w := by
    rw [BitVec.extractLsb'_append_extractLsb'_eq_extractLsb' (start₂ := 28) (start₁ := 0) rfl,
      BitVec.extractLsb'_eq_self]
  have hm : (0xF0000000 : Word) = BitVec.allOnes 4 ++ (0 : BitVec 28) := rfl
  calc w &&& 0xF0000000 = o.matchWord
      ↔ w.extractLsb' 28 4 ++ (0 : BitVec 28) = o.code ++ 0 := by
        conv_lhs => rw [← hw, hm, BitVec.and_append, BitVec.and_allOnes, BitVec.ofNat_eq_ofNat, BitVec.and_zero]
        rfl
    _ ↔ w.extractLsb' 28 4 = o.code := BitVec.append_left_inj 0
    _ ↔ opField w = o.code.toNat := BitVec.toNat_inj.symm

/-- The bits of OP and those of ZMASK are told apart, so `fullmask` compares both at once. -/
theorem and_fullmask_eq_matchWord_iff (w : Word) (o : Opcode) :
    w &&& o.fullmask = o.matchWord ↔ opField w = o.code.toNat ∧ w &&& o.zmask = 0 := by
  rw [← and_opMask_eq_matchWord_iff]
  constructor
  · intro h
    have hop : o.fullmask &&& 0xF0000000 = 0xF0000000 ∧ o.matchWord &&& 0xF0000000 = o.matchWord := by
      cases o <;> decide
    have hz : o.fullmask &&& o.zmask = o.zmask ∧ o.matchWord &&& o.zmask = 0 := by
      cases o <;> decide
    constructor
    · rw [← hop.1, ← BitVec.and_assoc, h, hop.2]
    · rw [← hz.1, ← BitVec.and_assoc, h, hz.2]
  · rintro ⟨hop, hz⟩
    rw [Opcode.fullmask, BitVec.and_or_distrib_left, hop, hz]
    exact BitVec.or_zero

theorem decodes_to_opcode_iff (w : Word) (o : Opcode) :
    (∃ i, i.opcode = o ∧ decode w = .command i) ↔ opField w = o.code.toNat ∧ w &&& o.zmask = 0 := by
  constructor
  · rintro ⟨i, rfl, h⟩
    obtain ⟨o, ho, hz, rfl⟩ := (decode_eq_command _ _).1 h
    rw [Opcode.command_opcode]
    exact ⟨ho, hz⟩
  · rintro ⟨ho, hz⟩
    exact ⟨_, Opcode.command_opcode _ _ _, decode_of_no_reserved_bits ho hz⟩

/-- Settles O5: every row of the table is its opcode's, and both sides say that OP is the opcode's number and no
required-zero bit is set. -/
theorem wordSelectsCommandByMaskAndMatch : Obligations.WordSelectsCommandByMaskAndMatch := by
  intro row hrow
  obtain ⟨o, -, rfl⟩ : ∃ o ∈ [Opcode.nop, .clear, .load, .push, .encode, .xmit, .rdfb, .rdch, .rdstat, .rderr,
      .clrstat], o.tableRow = row := List.mem_map.1 hrow
  exact ⟨rfl, fun w => (decodes_to_opcode_iff w o).trans (and_fullmask_eq_matchWord_iff w o).symm⟩

end Sys2Proof

namespace Sys2Proof.Machine

/-! ## R76, R77: commands and malformed words -/

/-- Settles O6: the first two checks in their order, and the decoder and the encoder as inverses of each other. -/
theorem everyWordIsACommandOrOneError : Obligations.EveryWordIsACommandOrOneError := by
  intro w
  refine ⟨decode_of_reserved_opcode, fun o ho hz => ?reserved, fun o ho hz => ?command, ?total, fun e s hd => ?error⟩
  case reserved => exact decode_of_reserved_bits ((opcodeOf_eq_some _ _).1 ho) hz
  case command =>
    have hd := decode_of_no_reserved_bits ((opcodeOf_eq_some _ _).1 ho) hz
    refine ⟨_, encode_of_decode hd, ?_⟩
    rintro i ⟨hwf, rfl⟩
    exact Decoded.command.inj ((decode_encode hwf).symm.trans hd)
  case total =>
    rw [← opcodeOf_eq_none, ← Option.ne_none_iff_exists']
    exact em _
  case error =>
    refine ⟨step_offer_malformed s hd, ?_⟩
    rintro ⟨i, hwf, rfl⟩
    rw [decode_encode hwf] at hd
    cases hd

/-! ## The index check of R79, on the command -/

/-- The command's index is past its range: 24 channels, 36 frame bytes (R79). -/
def BadIndex : Instr → Prop
  | .load ch _ => 24 ≤ ch
  | .rdfb byte => 36 ≤ byte
  | .rdch ch => 24 ≤ ch
  | .nop | .clear | .push _ | .encode | .xmit | .rdstat | .rderr | .clrstat => False

theorem errorOf_eq_badIndex_iff_badIndex {w : Word} {i : Instr} (h : decode w = .command i) :
    errorOf w = some .badIndex ↔ BadIndex i := by
  rw [errorOf_eq_badIndex_iff h]
  cases i <;> simp [BadIndex]

theorem exec_of_badIndex {i : Instr} (h : BadIndex i) (s : State) :
    exec i s = .next (s.raiseCmdError .badIndex (encode i)) := by
  cases i with
  | load ch val => exact exec_load_of_ge s ch val h
  | rdfb byte => exact exec_rdfb_of_ge s byte h
  | rdch ch => exact exec_rdch_of_ge s ch h
  | nop | clear | push _ | encode | xmit | rdstat | rderr | clrstat => exact h.elim

/-- A command whose index is in range answers in one of three ways, by its opcode: `ok` with some block, `ok(d)` with
the state kept, or, for XMIT, `ok` with one frame. -/
theorem exec_of_not_badIndex {i : Instr} (h : ¬ BadIndex i) (s : State) :
    ((i.opcode.code.toNat < 0x6 ∨ i.opcode.code.toNat = 0xA) ∧ i ≠ .xmit ∧
      ∃ b, exec i s = .next (s.setBlock b).respond) ∨
    ((0x6 ≤ i.opcode.code.toNat ∧ i.opcode.code.toNat ≤ 0x9) ∧ ∃ d, exec i s = .next (s.respondData d)) ∨
    (i = .xmit ∧ ∃ f, exec i s = .next (s.emit f).respond) := by
  cases i with
  | load ch val =>
    exact .inl ⟨by simp [Instr.opcode, Opcode.code], nofun, _, exec_load_of_lt s ch val (Nat.not_le.1 h)⟩
  | nop | clear | push _ | encode | clrstat => exact .inl ⟨by simp [Instr.opcode, Opcode.code], nofun, _, rfl⟩
  | xmit => exact .inr (.inr ⟨rfl, _, rfl⟩)
  | rdfb byte => exact .inr (.inl ⟨by simp [Instr.opcode, Opcode.code], _, exec_rdfb_of_lt s byte (Nat.not_le.1 h)⟩)
  | rdch ch => exact .inr (.inl ⟨by simp [Instr.opcode, Opcode.code], _, exec_rdch_of_lt s ch (Nat.not_le.1 h)⟩)
  | rdstat | rderr => exact .inr (.inl ⟨by simp [Instr.opcode, Opcode.code], _, rfl⟩)

/-! ## R79, R201: erroneous words -/

/-- A word that fails a check raises the error of the first one it fails, and does nothing else. -/
theorem step_offer_error (s : State) {w : Word} {e : CmdError} (h : errorOf w = some e) :
    step (s.offer w) = .next (s.raiseCmdError e w) := by
  cases hd : decode w with
  | malformed e' =>
    rw [errorOf_of_malformed hd] at h
    cases h
    exact step_offer_malformed s hd
  | command i =>
    obtain hn | hb := errorOf_of_command hd
    · rw [hn] at h
      cases h
    · obtain rfl : e = .badIndex := Option.some.inj (h.symm.trans hb)
      rw [step_offer_command s hd, exec_of_badIndex ((errorOf_eq_badIndex_iff_badIndex hd).1 hb),
        (encode_of_decode hd).2]

/-- A word with no required-zero bit set whose command's index is past its range raises BAD_INDEX. -/
theorem step_offer_badIndex (s : State) {w : Word} {o : Opcode} (ho : opField w = o.code.toNat)
    (hz : w &&& o.zmask = 0) (hi : BadIndex (o.command (idxField w) (valField w))) :
    step (s.offer w) = .next (s.raiseCmdError .badIndex w) :=
  step_offer_error s ((errorOf_eq_badIndex_iff_badIndex (decode_of_no_reserved_bits ho hz)).2 hi)

/-- Settles O12: each clause raises its error, and `raiseCmdError` is the state the statement writes out. -/
theorem erroneousWordRecordsTheFirstError : Obligations.ErroneousWordRecordsTheFirstError := by
  intro s w raised
  refine ⟨fun h => ?illegal, fun o ho hz => ?reserved, fun ho hz hi => ?load, fun ho hz hi => ?rdch,
    fun ho hz hi => ?rdfb⟩
  case illegal => exact step_offer_malformed s (decode_of_reserved_opcode h)
  case reserved => exact step_offer_malformed s (decode_of_reserved_bits ((opcodeOf_eq_some _ _).1 ho) hz)
  case load => exact step_offer_badIndex s (o := .load) ho hz hi
  case rdch => exact step_offer_badIndex s (o := .rdch) ho hz hi
  case rdfb => exact step_offer_badIndex s (o := .rdfb) ho hz hi

/-! ## R83: one completion -/

/-- A word that fails no check decodes to a command whose index is in range. -/
theorem decode_of_errorOf_none {w : Word} (h : errorOf w = none) :
    ∃ i, decode w = .command i ∧ opField w = i.opcode.code.toNat ∧ ¬ BadIndex i := by
  cases hd : decode w with
  | malformed e => rw [errorOf_of_malformed hd] at h; cases h
  | command i =>
    obtain ⟨ho, -⟩ := (decodes_to_opcode_iff w i.opcode).1 ⟨i, rfl, hd⟩
    refine ⟨i, rfl, ho, fun hb => ?_⟩
    rw [(errorOf_eq_badIndex_iff_badIndex hd).2 hb] at h
    cases h

/-- XMIT has one word (R160). -/
theorem eq_xmit_iff {w : Word} {i : Instr} (h : decode w = .command i) : w = 0x50000000 ↔ i = .xmit := by
  have hx : encode .xmit = 0x50000000 := by decide
  constructor
  · rintro rfl
    rw [← hx, decode_encode rfl] at h
    cases h
    rfl
  · rintro rfl
    rw [← hx, (encode_of_decode h).2]

/-- Settles O15: a word that fails a check completes `error`; any other runs its command, which answers in one of
three ways. -/
theorem oneCompletionPerCommand : Obligations.OneCompletionPerCommand := by
  intro s w
  cases he : errorOf w with
  | some e =>
    have hw : w ≠ 0x50000000 := by
      rintro rfl
      have hx : errorOf 0x50000000 = none := by decide
      rw [hx] at he
      cases he
    refine ⟨_, .error e, step_offer_error s he, rfl, rfl, ?_, nofun, nofun, fun h => absurd h hw, fun _ => rfl⟩
    rintro _ ⟨⟩
    rfl
  | none =>
    obtain ⟨i, hd, ho, hb⟩ := decode_of_errorOf_none he
    rw [step_offer_command s hd, ho, ne_eq, eq_xmit_iff hd]
    obtain ⟨hk, hx, b, h⟩ | ⟨hk, d, h⟩ | ⟨rfl, f, h⟩ := exec_of_not_badIndex hb s
    · exact ⟨_, .ok, h, rfl, rfl, nofun, fun _ h6 h9 => by omega, fun _ _ => rfl, fun h => absurd h hx, fun _ => rfl⟩
    · have hx : i ≠ .xmit := by
        rintro rfl
        exact absurd hk (by decide)
      exact ⟨_, .okData d, h, rfl, rfl, nofun, fun _ _ _ => ⟨d, rfl⟩, fun _ hk' => by omega, fun h => absurd h hx,
        fun _ => rfl⟩
    · exact ⟨_, .ok, h, rfl, rfl, nofun, fun _ h6 _ => absurd h6 (by decide), fun _ _ => rfl, fun _ => ⟨f, rfl⟩,
        fun h => absurd rfl h⟩

end Sys2Proof.Machine

/-! SUPPORT and PROOFS. The family of the channels: clamping and its flags (R100, R101, R106), what NOP, CLEAR, LOAD
and PUSH do (R102 to R105), and CLEAR followed by PUSHes (R107). -/

namespace Sys2Proof

/-! ## The words of a command -/

/-- A well-formed command has one word, the one the encoder gives. -/
theorem decode_eq_command_iff_eq_encode {w : Word} {i : Instr} (h : i.WellFormed) :
    decode w = .command i ↔ w = encode i := by
  constructor
  · exact fun hd => (encode_of_decode hd).2.symm
  · rintro rfl
    exact decode_encode h

/-- A command's words are those with its opcode, no required-zero bit set, and its operands in the fields. -/
theorem decode_eq_command_iff_fields {w : Word} {i : Instr} :
    decode w = .command i ↔ opField w = i.opcode.code.toNat ∧ w &&& i.opcode.zmask = 0 ∧
      i = i.opcode.command (idxField w) (valField w) := by
  constructor
  · intro hd
    obtain ⟨o, ho, hz, rfl⟩ := (decode_eq_command _ _).1 hd
    rw [Opcode.command_opcode]
    exact ⟨ho, hz, rfl⟩
  · rintro ⟨ho, hz, hi⟩
    rw [hi]
    exact decode_of_no_reserved_bits ho hz

theorem layOut_eq_or (op : BitVec 4) (idx : BitVec 6) (val : BitVec 16) :
    layOut op idx val = op.setWidth 32 <<< 28 ||| idx.setWidth 32 <<< 22 ||| val.setWidth 32 := by
  have h := BitVec.setWidth_append_append_append_eq_shiftLeft_setWidth_or (w'''' := 32) (b := op) (b' := idx)
    (b'' := (0 : BitVec 6)) (b''' := val)
  rw [BitVec.setWidth_eq] at h
  simpa [layOut] using h

/-- The low 16 bits of an integer, as the encoder cuts them and as R104 and R105 mask them. -/
theorem setWidth_ofInt_eq_and (v : Int) :
    (BitVec.ofInt 16 v).setWidth 32 = (BitVec.ofInt 32 v &&& 0xFFFF : Word) := by
  have hmask (n : Nat) : n &&& 0xFFFF = n % 2 ^ 16 := Nat.and_two_pow_sub_one_eq_mod n 16
  apply BitVec.eq_of_toNat_eq
  rw [BitVec.toNat_setWidth, BitVec.toNat_and, show (0xFFFF : Word).toNat = 0xFFFF from rfl, hmask,
    BitVec.toNat_ofInt, BitVec.toNat_ofInt]
  omega

/-- A command's word as R104 and R105 write it: OP, IDX and VAL shifted to their places. -/
theorem encode_eq_or {i : Instr} (h : IdxFits i.idx) :
    encode i = i.opcode.code.setWidth 32 <<< 28 ||| BitVec.ofNat 32 i.idx <<< 22 |||
      (BitVec.ofInt 32 i.val &&& 0xFFFF) := by
  have hidx : (BitVec.ofNat 6 i.idx).setWidth 32 = BitVec.ofNat 32 i.idx :=
    BitVec.setWidth_ofNat_of_le_of_lt (by decide) (by omega)
  rw [encode, layOut_eq_or, hidx, setWidth_ofInt_eq_and]

end Sys2Proof

namespace Sys2Proof.Machine

/-- A word with the command's opcode and a required-zero bit set raises RESERVED_FIELD. -/
theorem step_offer_reserved_bits (s : State) {w : Word} {o : Opcode} (ho : opField w = o.code.toNat)
    (hz : w &&& o.zmask ≠ 0) : step (s.offer w) = .next (s.raiseCmdError .reservedField w) :=
  step_offer_malformed s (decode_of_reserved_bits ho hz)

/-- A command that takes no operand has one word, and every other word with its opcode has a required-zero bit set. -/
theorem onlyWord_of_no_operand {i : Instr} (h : ∀ idx val, i.opcode.command idx val = i) :
    OnlyWord i i.opcode.code.toNat (encode i) := by
  have hwf : i.WellFormed := h 0 0 ▸ i.opcode.command_wellFormed (by decide) (by decide)
  have hword (w : Word) : decode w = .command i ↔ w = encode i := decode_eq_command_iff_eq_encode hwf
  refine ⟨hword, fun s w ho hne => step_offer_reserved_bits s ho fun hz => hne ?_⟩
  rw [← hword, decode_of_no_reserved_bits ho hz, h]

/-! ## R100, R101: clamping and its flags -/

/-- R100 as one formula. -/
theorem clamp12_toNat (v : Int) : ((clamp12 v).toNat : Int) = max 0 (min v 4095) := by
  by_cases hneg : v < 0
  · rw [clamp12_of_neg hneg, show (0 : ChanVal).toNat = 0 from rfl]
    omega
  · by_cases hgt : 4095 < v
    · rw [clamp12_of_gt hgt, show (4095 : ChanVal).toNat = 4095 from rfl]
      omega
    · rw [clamp12_of_mem (by omega) (by omega), BitVec.toNat_ofNat]
      omega

/-- Settles O29, from the value of `clamp12` as one formula. -/
theorem clampSaturates : Obligations.ClampSaturates := by
  intro v
  rw [clamp12_toNat]
  split_ifs <;> omega

/-- Settles O30: of the two comparisons `note` makes, the hypotheses decide both. -/
theorem noteSetsTheClampFlag : Obligations.NoteSetsTheClampFlag := by
  intro b v
  refine ⟨fun hneg => ?below, fun hgt => ?above, fun h0 h1 => ?within⟩
  case below =>
    have hgt : ¬ 4095 < v := by omega
    simp [Block.note, hneg, hgt]
  case above =>
    have hneg : ¬ v < 0 := by omega
    have hgt' : 4095 < v := hgt
    simp [Block.note, hneg, hgt']
  case within =>
    have hneg : ¬ v < 0 := by omega
    have hgt : ¬ 4095 < v := by omega
    simp [Block.note, hneg, hgt]

/-! ## R106: saturating to 16 bits -/

theorem sat16_fits (x : Int) : ValFits (sat16 x) := by
  unfold ValFits sat16
  omega

/-- The channel range lies inside the 16-bit range, so the clamped value is the same. -/
theorem clamp12_sat16 (x : Int) : clamp12 (sat16 x) = clamp12 x := by
  apply BitVec.eq_of_toNat_eq
  have hx := clamp12_toNat x
  have hsat := clamp12_toNat (sat16 x)
  unfold sat16 at hsat ⊢
  omega

/-- The bounds `note` compares with lie inside the 16-bit range, so both comparisons come out the same. -/
theorem Block.note_sat16 (b : Block) (x : Int) : b.note (sat16 x) = b.note x := by
  have hlo : sat16 x < 0 ↔ x < 0 := by unfold sat16; omega
  have hhi : 4095 < sat16 x ↔ 4095 < x := by unfold sat16; omega
  simp only [Block.note, hlo, hhi]

/-- Settles O31: the channel range lies inside the 16-bit range, so `clamp12` and `note` see no difference. -/
theorem saturatedIntegersLoseNothing : Obligations.SaturatedIntegersLoseNothing :=
  fun x => ⟨sat16_fits x, clamp12_sat16 x, fun b => b.note_sat16 x⟩

/-! ## R102 to R105: the four commands -/

/-- Settles O18: NOP takes no operand, and its meaning is one completion. -/
theorem nopChangesNothing : Obligations.NopChangesNothing :=
  ⟨onlyWord_of_no_operand (i := .nop) fun _ _ => rfl, exec_nop⟩

/-- Settles O19: CLEAR takes no operand, and `clearChannels` is the block the statement writes out. -/
theorem clearZeroesTheChannels : Obligations.ClearZeroesTheChannels :=
  ⟨onlyWord_of_no_operand (i := .clear) fun _ _ => rfl, exec_clear⟩

theorem Block.writeClamped_getElem_self_toNat (b : Block) (k : Nat) (h : k < 24) (v : Int) :
    ((b.writeClamped k h v).ch[k].toNat : Int) = max 0 (min v 4095) := by
  rw [← clamp12_toNat]
  simp

theorem Block.writeClamped_getElem_ne (b : Block) (k : Nat) (h : k < 24) (v : Int) {j : Nat} (hj : j < 24)
    (hne : j ≠ k) : (b.writeClamped k h v).ch[j] = b.ch[j] := by
  simp [hne.symm]

/-- Settles O20: the words by their fields; in range the effect is `writeClamped`, past it BAD_INDEX. -/
theorem loadWritesOneChannel : Obligations.LoadWritesOneChannel := by
  refine ⟨fun w ch v => ?words, fun ch v hch _ => ?encoding, fun s w ho hz => ?reserved, fun s ch v h => ?writes,
    fun s ch v h _ _ => exec_load_of_ge s ch v h⟩
  case words =>
    rw [decode_eq_command_iff_fields]
    simp [Instr.opcode, Opcode.command, Opcode.code, Opcode.zmask]
  case encoding =>
    -- The statement's 0x20000000 elaborates as a natural number cast to a word.
    have hop : Opcode.load.code.setWidth 32 <<< 28 = ((0x20000000 : Nat) : Word) := by decide
    rw [encode_eq_or (i := .load ch v) hch, Instr.opcode, hop, Instr.idx, Instr.val]
  case reserved => exact step_offer_reserved_bits s (o := .load) ho hz
  case writes =>
    exact ⟨_, exec_load_of_lt s ch v h, s.block.writeClamped_getElem_self_toNat ch h v,
      fun k hk hne => s.block.writeClamped_getElem_ne ch h v hk hne, rfl⟩

/-- Settles O21: the words by their fields; below 24 the effect is `writeClamped` at WPTR, at 24 only OVF. -/
theorem pushWritesTheNextChannel : Obligations.PushWritesTheNextChannel := by
  refine ⟨fun w v => ?words, fun v _ => ?encoding, fun s w ho hz => ?reserved, fun s v h => ?writes,
    fun s v h => ?full⟩
  case words =>
    rw [decode_eq_command_iff_fields]
    simp [Instr.opcode, Opcode.command, Opcode.code, Opcode.zmask]
  case encoding =>
    have hop : Opcode.push.code.setWidth 32 <<< 28 ||| BitVec.ofNat 32 0 <<< 22 = (0x30000000 : Word) := by decide
    rw [encode_eq_or (i := .push v) (Nat.zero_le 63), Instr.opcode, Instr.idx, hop, Instr.val]
  case reserved => exact step_offer_reserved_bits s (o := .push) ho hz
  case writes =>
    rw [exec_push, s.block.pushValue_of_lt v h]
    exact ⟨_, rfl, s.block.writeClamped_getElem_self_toNat _ h v,
      fun k hk hne => s.block.writeClamped_getElem_ne _ h v hk hne, rfl, rfl⟩
  case full =>
    rw [exec_push, s.block.pushValue_of_full v h]
    rfl

/-! ## R107: CLEAR and then PUSHes -/

/-- A run of commands of one kind, each of which completes `ok` and changes the block by `effect`: the inputs behind
them stay, and the block is the fold of their effects. -/
theorem runSteps_commands_of_effect {α : Type} (cmd : α → Instr) (effect : Block → α → Block)
    (hexec : ∀ a s, exec (cmd a) s = .next (s.setBlock (effect s.block a)).respond)
    (as : List α) (hwf : ∀ a ∈ as, (cmd a).WellFormed) (s : State) (rest : List Input) :
    ∃ t, runSteps as.length { s with inputs := commandInputs (as.map cmd) ++ rest } = .next t ∧
      t.inputs = rest ∧ t.block = as.foldl effect s.block := by
  induction as generalizing s with
  | nil => exact ⟨_, rfl, rfl, rfl⟩
  | cons a as ih =>
    obtain ⟨hwfa, hwfas⟩ := List.forall_mem_cons.1 hwf
    obtain ⟨t, hrun, hinputs, hblock⟩ := ih hwfas (s.setBlock (effect s.block a)).respond
    exact ⟨t, (runSteps_command (decode_encode hwfa) (hexec a s) _ _).trans hrun, hinputs, hblock⟩

/-! One PUSH, element by element, whatever WPTR is. -/

theorem Block.pushValue_wptr (b : Block) (v : Int) : (b.pushValue v).wptr.val = min (b.wptr.val + 1) 24 := by
  by_cases h : b.wptr.val < 24
  · rw [b.pushValue_wptr_of_lt v h]
    omega
  · have hfull : b.wptr.val = 24 := by omega
    simp only [b.pushValue_of_full v hfull]
    omega

theorem Block.pushValue_ovf_iff (b : Block) (v : Int) :
    (b.pushValue v).ovf = true ↔ b.wptr.val = 24 ∨ b.ovf = true := by
  by_cases h : b.wptr.val < 24
  · simp [b.pushValue_of_lt v h, h.ne]
  · have hfull : b.wptr.val = 24 := by omega
    simp [b.pushValue_of_full v hfull, hfull]

theorem Block.pushValue_getElem (b : Block) (v : Int) (k : Nat) (hk : k < 24) :
    (b.pushValue v).ch[k] = if k = b.wptr.val then clamp12 v else b.ch[k] := by
  by_cases h : b.wptr.val < 24
  · simp [b.pushValue_of_lt v h, Vector.getElem_set, eq_comm]
  · have hne : k ≠ b.wptr.val := by omega
    simp [b.pushValue_of_full v (by omega), hne]

/-! Several PUSHes, from any WPTR. -/

theorem Block.foldl_pushValue_wptr (vs : List Int) (b : Block) :
    (vs.foldl Block.pushValue b).wptr.val = min (b.wptr.val + vs.length) 24 := by
  induction vs generalizing b with
  | nil => simp only [List.foldl_nil, List.length_nil]; omega
  | cons v vs ih =>
    rw [List.foldl_cons, ih, b.pushValue_wptr, List.length_cons]
    omega

theorem Block.foldl_pushValue_ovf_iff (vs : List Int) (b : Block) :
    (vs.foldl Block.pushValue b).ovf = true ↔ 24 < b.wptr.val + vs.length ∨ b.ovf = true := by
  induction vs generalizing b with
  | nil =>
    have h : ¬ 24 < b.wptr.val := by omega
    simp [h]
  | cons v vs ih =>
    rw [List.foldl_cons, ih, b.pushValue_wptr, b.pushValue_ovf_iff, List.length_cons, ← or_assoc]
    refine or_congr_left ?_
    omega

/-- Channels below WPTR keep their value; those from WPTR on take the values in order, as far as they reach. -/
theorem Block.foldl_pushValue_getElem (vs : List Int) (b : Block) (k : Nat) (hk : k < 24) :
    (vs.foldl Block.pushValue b).ch[k] =
      if k < b.wptr.val then b.ch[k] else (vs[k - b.wptr.val]?.map clamp12).getD b.ch[k] := by
  induction vs generalizing b with
  | nil => simp
  | cons v vs ih =>
    rw [List.foldl_cons, ih, b.pushValue_wptr, b.pushValue_getElem v k hk]
    obtain hlt | heq | hgt := lt_trichotomy k b.wptr.val
    · have hlt' : k < min (b.wptr.val + 1) 24 := by omega
      rw [if_pos hlt', if_neg hlt.ne, if_pos hlt]
    · have hlt' : k < min (b.wptr.val + 1) 24 := by omega
      have hidx : k - b.wptr.val = 0 := by omega
      rw [if_pos hlt', if_pos heq, if_neg heq.not_lt, hidx]
      rfl
    · have hge' : ¬ k < min (b.wptr.val + 1) 24 := by omega
      have hidx : k - b.wptr.val = k - min (b.wptr.val + 1) 24 + 1 := by omega
      rw [if_neg hge', if_neg hgt.ne', if_neg hgt.not_gt, hidx, List.getElem?_cons_succ]

/-- Settles O32: CLEAR leaves WPTR 0 and every channel 0, and the PUSHes go on from there. -/
theorem clearThenPushesFillInOrder : Obligations.ClearThenPushesFillInOrder := by
  intro s vs hfits
  have hwf : ∀ v ∈ vs, (Instr.push v).WellFormed := fun v hv => decide_eq_true (hfits v hv)
  obtain ⟨t, hrun, hinputs, hblock⟩ := runSteps_commands_of_effect .push Block.pushValue (fun v s => exec_push s v)
    vs hwf (s.setBlock s.block.clearChannels).respond s.inputs
  refine ⟨t, (runSteps_command (decode_encode rfl) (exec_clear s) _ _).trans hrun, hinputs, fun k hk => ?channels,
    ?wptr, ?ovf⟩
  case channels => simp [hblock, Block.foldl_pushValue_getElem]
  case wptr => simp [hblock, Block.foldl_pushValue_wptr]
  case ovf => simp [hblock, Block.foldl_pushValue_ovf_iff]

end Sys2Proof.Machine

/-! SUPPORT and PROOFS. The family of the frame: ENCODE (R136), the byte formula and its closed form (R130 to R134),
what one channel reaches (R137), the inverse (R138), the transmitted stream (R139) and the extreme frames (R141). -/

namespace Sys2Proof.Machine

/-! ## R136: ENCODE -/

/-- Settles O22: ENCODE takes no operand, and `latchFrame` is the block the statement writes out. -/
theorem encodeLatchesTheFrame : Obligations.EncodeLatchesTheFrame :=
  ⟨onlyWord_of_no_operand (i := .encode) fun _ _ => rfl, exec_encode⟩

/-! ## R134: the closed form -/

theorem append_toNat {m n : Nat} (x : BitVec m) (y : BitVec n) : (x ++ y).toNat = x.toNat * 2 ^ n + y.toNat := by
  rw [BitVec.toNat_append, ← Nat.shiftLeft_add_eq_or_of_lt y.isLt, Nat.shiftLeft_eq]

theorem byteHi_eq_extractLsb' (c : ChanVal) : byteHi c.toNat = c.extractLsb' 0 8 := by
  apply BitVec.eq_of_toNat_eq
  rw [byteHi_toNat, BitVec.extractLsb'_toNat, Nat.shiftRight_zero]

theorem byteMid_eq_append (c d : ChanVal) : byteMid c.toNat d.toNat = c.extractLsb' 8 4 ++ d.extractLsb' 0 4 := by
  apply BitVec.eq_of_toNat_eq
  rw [byteMid_toNat, append_toNat, BitVec.extractLsb'_toNat, BitVec.extractLsb'_toNat, Nat.shiftRight_eq_div_pow,
    Nat.shiftRight_zero]
  omega

theorem byteLo_eq_extractLsb' (d : ChanVal) : byteLo d.toNat = d.extractLsb' 4 8 := by
  apply BitVec.eq_of_toNat_eq
  rw [byteLo_toNat, BitVec.extractLsb'_toNat, Nat.shiftRight_eq_div_pow]

/-- Settles O35: the byte of each residue modulo 3 by the formula, and the formula as bit slices. -/
theorem frameInClosedForm : Obligations.FrameInClosedForm := by
  intro chs q hq
  simp only [encodeFrame_getElem]
  rw [frameByte_hi chs q hq, frameByte_mid chs q hq, frameByte_lo chs q hq]
  exact ⟨byteHi_eq_extractLsb' _, byteMid_eq_append _ _, byteLo_eq_extractLsb' _⟩

/-! ## R130 to R133: pairs by the descending index -/

/-- The descending pair index `p` and the ascending `q = 11 - p` name the same bytes and channels (R134). -/
theorem exists_ascending_pair {p : Nat} (hp : p < 12) :
    ∃ q, q < 12 ∧ 35 - 3 * p = 3 * q + 2 ∧ 34 - 3 * p = 3 * q + 1 ∧ 33 - 3 * p = 3 * q ∧
      23 - 2 * p = 2 * q + 1 ∧ 22 - 2 * p = 2 * q :=
  ⟨11 - p, by omega⟩

theorem window_eq (p : Nat) : window p = (35 - 3 * p, 34 - 3 * p, 33 - 3 * p) := by
  have hmid : 35 - 3 * p - 1 = 34 - 3 * p := by omega
  have hlo : 35 - 3 * p - 2 = 33 - 3 * p := by omega
  rw [window, windowHi, hmid, hlo]

/-- A byte lies in the window of `pairOfByte` and in no other (R130). -/
theorem mem_window_iff {k p : Nat} (hk : k < 36) (hp : p < 12) :
    k = (window p).1 ∨ k = (window p).2.1 ∨ k = (window p).2.2 ↔ p = pairOfByte k := by
  simp only [window_eq, pairOfByte]
  omega

theorem pairOfByte_lt {k : Nat} (hk : k < 36) : pairOfByte k < 12 := by
  unfold pairOfByte
  omega

/-- Settles O34: `pairOfByte` is the one pair of a byte, and a pair's bytes are the formula's values. -/
theorem pairBytesByTheFormula : Obligations.PairBytesByTheFormula := by
  refine ⟨fun k hk => ⟨pairOfByte k, ⟨pairOfByte_lt hk, (mem_window_iff hk (pairOfByte_lt hk)).2 rfl⟩,
    fun p ⟨hp, hmem⟩ => (mem_window_iff hk hp).1 hmem⟩, fun chs p hp => ⟨window_eq p, ?_⟩⟩
  obtain ⟨q, hq, hi, mid, lo, first, second⟩ := exists_ascending_pair hp
  simp only [encodeFrame_getElem, hi, mid, lo, first, second]
  rw [frameByte_hi chs q hq, frameByte_mid chs q hq, frameByte_lo chs q hq, byteHi_toNat, byteMid_toNat, byteLo_toNat]
  omega

/-! ## The frame bit by bit -/

theorem frameByte_hi_getLsbD (chs : Channels) (q : Nat) (hq : q < 12) {i : Nat} (hi : i < 8) :
    (frameByte chs (3 * q + 2)).getLsbD i = chs[2 * q + 1].getLsbD i := by
  rw [frameByte_hi chs q hq, byteHi_eq_extractLsb', BitVec.getLsbD_extractLsb']
  simp [hi]

theorem frameByte_mid_getLsbD (chs : Channels) (q : Nat) (hq : q < 12) {i : Nat} (hi : i < 8) :
    (frameByte chs (3 * q + 1)).getLsbD i =
      if i < 4 then chs[2 * q].getLsbD i else chs[2 * q + 1].getLsbD (i + 4) := by
  rw [frameByte_mid chs q hq, byteMid_eq_append, BitVec.getLsbD_append]
  split_ifs with h
  · simp [h]
  · have hi' : i - 4 < 4 := by omega
    have hsum : 8 + (i - 4) = i + 4 := by omega
    simp [hi', hsum]

theorem frameByte_lo_getLsbD (chs : Channels) (q : Nat) (hq : q < 12) {i : Nat} (hi : i < 8) :
    (frameByte chs (3 * q)).getLsbD i = chs[2 * q].getLsbD (i + 4) := by
  rw [frameByte_lo chs q hq, byteLo_eq_extractLsb', BitVec.getLsbD_extractLsb']
  simp [hi, Nat.add_comm]

theorem exists_pair_of_byte {j : Nat} (hj : j < 36) :
    ∃ q, q < 12 ∧ (j = 3 * q + 2 ∨ j = 3 * q + 1 ∨ j = 3 * q) :=
  ⟨j / 3, by omega⟩

/-- Settles O37: each bit of a byte comes from one channel, and outside its window that is not channel `k`. -/
theorem channelReachesOnlyItsWindow : Obligations.ChannelReachesOnlyItsWindow := by
  intro chs k hk v j hj bit hbit hodd heven
  rw [encodeFrame_getElem, encodeFrame_getElem]
  obtain ⟨q, hq, rfl | rfl | rfl⟩ := exists_pair_of_byte hj
  · have hne : k ≠ 2 * q + 1 := by omega
    rw [frameByte_hi_getLsbD _ q hq hbit, frameByte_hi_getLsbD _ q hq hbit, Vector.getElem_set_ne _ _ hne]
  · rw [frameByte_mid_getLsbD _ q hq hbit, frameByte_mid_getLsbD _ q hq hbit]
    split_ifs with hlow
    · have hne : k ≠ 2 * q := by omega
      rw [Vector.getElem_set_ne _ _ hne]
    · have hne : k ≠ 2 * q + 1 := by omega
      rw [Vector.getElem_set_ne _ _ hne]
  · have hne : k ≠ 2 * q := by omega
    rw [frameByte_lo_getLsbD _ q hq hbit, frameByte_lo_getLsbD _ q hq hbit, Vector.getElem_set_ne _ _ hne]

/-! ## R138: the inverse -/

/-- Two frames are equal when their pairs are, three bytes each. -/
theorem Frame.ext_pairs {fb fb' : Frame}
    (h : ∀ (q : Nat) (_ : q < 12),
      fb[3 * q + 2] = fb'[3 * q + 2] ∧ fb[3 * q + 1] = fb'[3 * q + 1] ∧ fb[3 * q] = fb'[3 * q]) : fb = fb' := by
  refine Vector.ext fun j hj => ?_
  obtain ⟨q, hq, hjq⟩ := exists_pair_of_byte hj
  obtain ⟨hi, mid, lo⟩ := h q hq
  obtain rfl | rfl | rfl := hjq
  exacts [hi, mid, lo]

/-- Two lists of channels are equal when their pairs are, an odd and an even channel each. -/
theorem Channels.ext_pairs {chs chs' : Channels}
    (h : ∀ (q : Nat) (_ : q < 12), chs[2 * q + 1] = chs'[2 * q + 1] ∧ chs[2 * q] = chs'[2 * q]) : chs = chs' := by
  refine Vector.ext fun k hk => ?_
  obtain ⟨q, hq, hkq⟩ : ∃ q, q < 12 ∧ (k = 2 * q + 1 ∨ k = 2 * q) := ⟨k / 2, by omega⟩
  obtain ⟨odd, even⟩ := h q hq
  obtain rfl | rfl := hkq
  exacts [odd, even]

theorem decodeFrame_odd (fb : Frame) (q : Nat) (hq : q < 12) :
    (decodeFrame fb)[2 * q + 1] = fb[3 * q + 1].extractLsb' 4 4 ++ fb[3 * q + 2] := by
  rw [decodeFrame_getElem, channelOfFrame_odd fb q hq]

theorem decodeFrame_even (fb : Frame) (q : Nat) (hq : q < 12) :
    (decodeFrame fb)[2 * q] = fb[3 * q] ++ fb[3 * q + 1].extractLsb' 0 4 := by
  rw [decodeFrame_getElem, channelOfFrame_even fb q hq]

/-- Encoding cuts each channel of a pair in two and decoding joins the parts again. -/
theorem decodeFrame_encodeFrame (chs : Channels) : decodeFrame (encodeFrame chs) = chs := by
  refine Channels.ext_pairs fun q hq => ?_
  obtain ⟨hi, mid, lo⟩ := frameInClosedForm chs q hq
  rw [decodeFrame_odd _ q hq, decodeFrame_even _ q hq, hi, mid, lo, BitVec.extractLsb'_append_eq_left,
    BitVec.extractLsb'_append_eq_right]
  exact ⟨BitVec.extractLsb'_append_extractLsb', BitVec.extractLsb'_append_extractLsb'⟩

/-- Decoding cuts a pair's middle byte in two and encoding joins the parts again. -/
theorem encodeFrame_decodeFrame (fb : Frame) : encodeFrame (decodeFrame fb) = fb := by
  refine Frame.ext_pairs fun q hq => ?_
  obtain ⟨hi, mid, lo⟩ := frameInClosedForm (decodeFrame fb) q hq
  rw [hi, mid, lo, decodeFrame_odd _ q hq, decodeFrame_even _ q hq]
  refine ⟨BitVec.extractLsb'_append_eq_right, ?_, BitVec.extractLsb'_append_eq_left⟩
  rw [BitVec.extractLsb'_append_eq_left, BitVec.extractLsb'_append_eq_right]
  exact BitVec.extractLsb'_append_extractLsb'

theorem decodeFrame_odd_toNat (fb : Frame) (q : Nat) (hq : q < 12) :
    (decodeFrame fb)[2 * q + 1].toNat = fb[3 * q + 1].toNat / 16 * 256 + fb[3 * q + 2].toNat := by
  rw [decodeFrame_odd fb q hq, append_toNat, BitVec.extractLsb'_toNat, Nat.shiftRight_eq_div_pow]
  omega

theorem decodeFrame_even_toNat (fb : Frame) (q : Nat) (hq : q < 12) :
    (decodeFrame fb)[2 * q].toNat = fb[3 * q].toNat * 16 + fb[3 * q + 1].toNat % 16 := by
  rw [decodeFrame_even fb q hq, append_toNat, BitVec.extractLsb'_toNat, Nat.shiftRight_zero]
  omega

/-- Settles O38: `decodeFrame` inverts `encodeFrame` on both sides, and its channels as arithmetic on the bytes. -/
theorem encodeFrameIsABijection : Obligations.EncodeFrameIsABijection :=
  ⟨Function.bijective_iff_has_inverse.2 ⟨decodeFrame, decodeFrame_encodeFrame, encodeFrame_decodeFrame⟩,
    decodeFrame_encodeFrame, encodeFrame_decodeFrame,
    fun fb q hq => ⟨decodeFrame_odd_toNat fb q hq, decodeFrame_even_toNat fb q hq⟩⟩

/-! ## R139: the transmitted stream -/

/-- Bit `i` of byte `k` as the stream sends it: the byte goes out after those above it, its most significant bit first
(R52, R53). -/
theorem streamBit_encodeFrame (chs : Channels) {n k i : Nat} (hk : k < 36) (hi : i < 8)
    (hn : n = 8 * (35 - k) + i) :
    streamBit (encodeFrame chs) n = (frameByte chs k).getLsbD (7 - i) := by
  have hbyte : 35 - n / 8 = k := by omega
  have hbit : n % 8 = i := by omega
  rw [streamBit, encodeFrame_getElem, hbyte, hbit]

/-- Settles O39: a pair's three bytes go out from its highest to its lowest, each of them bit by bit. -/
theorem streamPositionsOfAPair : Obligations.StreamPositionsOfAPair := by
  intro chs p hp i
  obtain ⟨q, hq, hbyte, -, -, first, second⟩ := exists_ascending_pair hp
  simp only [first, second]
  refine ⟨fun h => ?firstLow, fun h => ?firstHigh, fun h => ?secondLow, fun h => ?secondHigh⟩
  case firstLow =>
    rw [streamBit_encodeFrame chs (k := 3 * q + 2) (i := i) (by omega) h (by omega),
      frameByte_hi_getLsbD chs q hq (by omega)]
  case firstHigh =>
    have hhigh : ¬ 7 - i < 4 := by omega
    have hbit : 7 - i + 4 = 11 - i := by omega
    rw [streamBit_encodeFrame chs (k := 3 * q + 1) (i := i) (by omega) (by omega) (by omega),
      frameByte_mid_getLsbD chs q hq (by omega), if_neg hhigh, hbit]
  case secondLow =>
    have hbit : 7 - (4 + i) = 3 - i := by omega
    have hlow : 3 - i < 4 := by omega
    rw [streamBit_encodeFrame chs (k := 3 * q + 1) (i := 4 + i) (by omega) (by omega) (by omega), hbit,
      frameByte_mid_getLsbD chs q hq (by omega), if_pos hlow]
  case secondHigh =>
    have hbit : 7 - i + 4 = 11 - i := by omega
    rw [streamBit_encodeFrame chs (k := 3 * q) (i := i) (by omega) h (by omega),
      frameByte_lo_getLsbD chs q hq (by omega), hbit]

/-! ## R141: the extreme frames -/

/-- Channels of one value give a frame of one byte, where the three slices of the closed form agree. -/
theorem encodeFrame_replicate {c : ChanVal} {x : Byte} (hi : c.extractLsb' 0 8 = x)
    (mid : c.extractLsb' 8 4 ++ c.extractLsb' 0 4 = x) (lo : c.extractLsb' 4 8 = x) :
    encodeFrame (Vector.replicate 24 c) = Vector.replicate 36 x := by
  refine Frame.ext_pairs fun q hq => ?_
  simpa only [Vector.getElem_replicate, hi, mid, lo] using frameInClosedForm (Vector.replicate 24 c) q hq

/-- Settles O40: every slice of 0 is all zeros, and every slice of 4095 all ones. -/
theorem extremeFrames : Obligations.ExtremeFrames :=
  ⟨encodeFrame_replicate (by decide) (by decide) (by decide),
    encodeFrame_replicate (by decide) (by decide) (by decide)⟩

end Sys2Proof.Machine

/-! SUPPORT and PROOFS. The family of output and status: what XMIT, RDFB, RDCH, RDSTAT, RDERR and CLRSTAT do (R160 to
R165). -/

namespace Sys2Proof.Machine

/-! ## R160: XMIT -/

/-- The bytes go out from FB[35] down, each from bit 7 down, which is the stream of R54. -/
theorem txBit_txOrder (fb : Frame) (n : Nat) (h : n < 288) : txBit (txOrder fb) n h = streamBit fb n := by
  have hbit : n % 8 < 8 := by omega
  rw [txBit, streamBit, txOrder_getElem, BitVec.getMsbD, decide_eq_true hbit, Bool.true_and]

/-- Settles O23: XMIT takes no operand, and the frame it emits is `txOrder` of FB. -/
theorem xmitEmitsTheLatchedFrame : Obligations.XmitEmitsTheLatchedFrame :=
  ⟨onlyWord_of_no_operand (i := .xmit) fun _ _ => rfl,
    fun s => ⟨txOrder s.block.fb, exec_xmit s, txOrder_getElem s.block.fb, txBit_txOrder s.block.fb⟩⟩

/-! ## R161, R162: the reads by index -/

/-- The word of a command without a value operand, as R161 and R162 write it: OP in its place, IDX, and VAL 0. -/
theorem encode_eq_or_of_val_eq_zero {i : Instr} {o : Opcode} {opBits : Word} (hop : i.opcode = o)
    (hbits : o.code.setWidth 32 <<< 28 = opBits) (hidx : IdxFits i.idx) (hval : i.val = 0) :
    encode i = opBits ||| BitVec.ofNat 32 i.idx <<< 22 := by
  have hv : (BitVec.ofInt 32 0 &&& 0xFFFF : Word) = 0 := by decide
  rw [encode_eq_or hidx, hop, hbits, hval, hv]
  exact BitVec.or_zero

/-- The words of a command whose one operand is an index: its opcode, no required-zero bit set, the index in IDX. -/
theorem decode_eq_indexed_command_iff {o : Opcode} {read : Nat → Instr}
    (hread : ∀ idx val, o.command idx val = read idx) (hinj : Function.Injective read) (w : Word) (k : Nat) :
    decode w = .command (read k) ↔ opField w = o.code.toNat ∧ w &&& o.zmask = 0 ∧ k = idxField w := by
  have hop : (read k).opcode = o := by rw [← hread k 0, Opcode.command_opcode]
  rw [decode_eq_command_iff_fields, hop, hread, hinj.eq_iff]

/-- Settles O24: the words by their fields; below 36 the data is the byte, past it BAD_INDEX. -/
theorem rdfbReadsOneFrameByte : Obligations.RdfbReadsOneFrameByte := by
  refine ⟨fun w k => ?words, fun k hk => ?encoding, fun s w ho hz => ?reserved, fun s k h => ?reads,
    fun s k h _ => exec_rdfb_of_ge s k h⟩
  case words => exact decode_eq_indexed_command_iff (o := .rdfb) (fun _ _ => rfl) (fun _ _ => Instr.rdfb.inj) w k
  case encoding => exact encode_eq_or_of_val_eq_zero (i := .rdfb k) (o := .rdfb) rfl (by decide) hk rfl
  case reserved => exact step_offer_reserved_bits s (o := .rdfb) ho hz
  case reads => exact ⟨_, exec_rdfb_of_lt s k h, BitVec.toNat_setWidth_of_le (by decide)⟩

/-- Settles O25: the words by their fields; below 24 the data is the channel, past it BAD_INDEX. -/
theorem rdchReadsOneChannel : Obligations.RdchReadsOneChannel := by
  refine ⟨fun w k => ?words, fun k hk => ?encoding, fun s w ho hz => ?reserved, fun s k h => ?reads,
    fun s k h _ => exec_rdch_of_ge s k h⟩
  case words => exact decode_eq_indexed_command_iff (o := .rdch) (fun _ _ => rfl) (fun _ _ => Instr.rdch.inj) w k
  case encoding => exact encode_eq_or_of_val_eq_zero (i := .rdch k) (o := .rdch) rfl (by decide) hk rfl
  case reserved => exact step_offer_reserved_bits s (o := .rdch) ho hz
  case reads =>
    have hd : (s.block.ch[k].setWidth 32).toNat = s.block.ch[k].toNat := BitVec.toNat_setWidth_of_le (by decide)
    exact ⟨_, exec_rdch_of_lt s k h, hd, hd.trans_le (Nat.le_of_lt_succ s.block.ch[k].isLt)⟩

/-! ## R163, R164: the reads of the status registers -/

/-- Settles O26: RDSTAT takes no operand, and its meaning is one completion with STATUS. -/
theorem rdstatReadsStatus : Obligations.RdstatReadsStatus :=
  ⟨onlyWord_of_no_operand (i := .rdstat) fun _ _ => rfl, exec_rdstat⟩

/-- Settles O27: RDERR takes no operand and answers ERRWORD, which the error record holds at 0 while ERR = 0. -/
theorem rderrReadsTheFirstErrorWord : Obligations.RderrReadsTheFirstErrorWord := by
  refine ⟨onlyWord_of_no_operand (i := .rderr) fun _ _ => rfl, fun s =>
    ⟨s.block.errword, exec_rderr s, rfl, fun hrecord herr => ?_⟩⟩
  obtain ⟨hclear, -⟩ := hrecord
  exact (hclear herr).2

/-! ## R165: CLRSTAT -/

/-- Settles O28: CLRSTAT takes no operand, `clearStatus` is the block the statement writes out, and any other word with
its opcode raises an error, after which ERR is set. -/
theorem clrstatClearsTheStickyStatus : Obligations.ClrstatClearsTheStickyStatus := by
  have honly : OnlyWord .clrstat 0xA 0xA0000000 := onlyWord_of_no_operand (i := .clrstat) fun _ _ => rfl
  exact ⟨honly, exec_clrstat, fun s w ho hne =>
    ⟨_, honly.2 s w ho hne, s.block.captureError_err .reservedField w⟩⟩

end Sys2Proof.Machine

/-! SUPPORT and PROOFS. The family of errors: the first error's record stays until CLRSTAT or reset (R202). -/

namespace Sys2Proof.Machine

/-! ## Runs without reset and one command -/

/-- A step takes the oldest input and leaves the others in place (R82). -/
theorem step_inputs {s t : State} (h : step s = .next t) : t.inputs = s.inputs.tail := by
  obtain ⟨hi, rfl⟩ | ⟨_, hi, rfl⟩ | ⟨_, _, _, hi, -, rfl⟩ | ⟨_, rest, i, hi, -, hx⟩ := step_cases h <;> rw [hi]
  · rfl
  · rfl
  · rfl
  · obtain ⟨u, hu, hinputs, -⟩ := exec_ignores_inputs i { s with inputs := rest }
    cases hx.symm.trans hu
    exact hinputs

theorem NoResetNor.tail {w : Word} {xs : List Input} (h : NoResetNor w xs) : NoResetNor w xs.tail :=
  h.imp (mt List.mem_of_mem_tail) (mt List.mem_of_mem_tail)

/-- What every step without reset and the word `w` keeps, a run without them keeps. -/
theorem runSteps_keeps_of_noResetNor {w : Word} {P : State → Prop}
    (hstep : ∀ s t, NoResetNor w s.inputs → P s → step s = .next t → P t) (n : Nat) {s t : State}
    (hno : NoResetNor w s.inputs) (hs : P s) (hrun : runSteps n s = .next t) : P t := by
  induction n generalizing s with
  | zero => cases hrun; exact hs
  | succ n ih =>
    obtain ⟨u, hu⟩ := step_answers s
    rw [runSteps_succ_of_step n hu] at hrun
    have hno' : NoResetNor w u.inputs := step_inputs hu ▸ hno.tail
    exact ih hno' (hstep s u hno hs hu) hrun

/-! ## R202: the first error -/

/-- ERR is set, and CAUSE and ERRWORD hold `c` and `w`. -/
structure Block.HoldsError (c : Cause) (w : Word) (b : Block) : Prop where
  err : b.err = true
  cause : b.cause = c
  errword : b.errword = w

section RecordedError

variable {c : Cause} {w : Word}

/-- A record is three registers: whatever leaves them as they are leaves it. -/
theorem Block.HoldsError.congr {b b' : Block} (h : b.HoldsError c w) (he : b'.err = b.err)
    (hc : b'.cause = b.cause) (hw : b'.errword = b.errword) : b'.HoldsError c w :=
  ⟨he.trans h.err, hc.trans h.cause, hw.trans h.errword⟩

theorem Block.HoldsError.captureError {b : Block} (h : b.HoldsError c w) (e : CmdError) (w' : Word) :
    (b.captureError e w').HoldsError c w :=
  (Block.captureError_of_err h.err e w').symm ▸ h

/-- CLRSTAT alone among the commands touches a recorded error (R165, R208). -/
theorem exec_keeps_recorded_error {i : Instr} {s t : State} (hi : i ≠ .clrstat) (hs : s.block.HoldsError c w)
    (h : exec i s = .next t) : t.block.HoldsError c w := by
  obtain hb | ⟨-, hb⟩ | ⟨ch, v, hc, -, hb⟩ | ⟨v, -, hb⟩ | ⟨-, hb⟩ | ⟨hclrstat, -⟩ | ⟨-, hb⟩ := exec_block_cases h
  · exact hb ▸ hs
  · exact hb ▸ hs.congr s.block.clearChannels_err s.block.clearChannels_cause s.block.clearChannels_errword
  · exact hb ▸ hs.congr (s.block.writeClamped_err ch hc v) (s.block.writeClamped_cause ch hc v)
      (s.block.writeClamped_errword ch hc v)
  · exact hb ▸ hs.congr (s.block.pushValue_err v) (s.block.pushValue_cause v) (s.block.pushValue_errword v)
  · exact hb ▸ hs.congr s.block.latchFrame_err s.block.latchFrame_cause s.block.latchFrame_errword
  · exact absurd hclrstat hi
  · exact hb ▸ hs.captureError .badIndex (encode i)

/-- While ERR = 1 a step that takes neither reset nor CLRSTAT's word keeps the recorded error. -/
theorem step_keeps_recorded_error {s t : State} (hno : NoResetNor 0xA0000000 s.inputs)
    (hs : s.block.HoldsError c w) (h : step s = .next t) : t.block.HoldsError c w := by
  obtain ⟨hreset, hclrstat⟩ := hno
  obtain ⟨-, rfl⟩ | ⟨_, hi, -⟩ | ⟨w', _, e, -, -, rfl⟩ | ⟨w', rest, i, hi, hd, hx⟩ := step_cases h
  · exact hs
  · exact absurd (hi ▸ List.mem_cons_self) hreset
  · exact hs.captureError e w'
  · have hne : i ≠ .clrstat := by
      rintro rfl
      have hword : w' = 0xA0000000 := ((onlyWord_of_no_operand (i := .clrstat) fun _ _ => rfl).1 w').1 hd
      exact hclrstat (hi ▸ hword ▸ List.mem_cons_self)
    exact exec_keeps_recorded_error (s := { s with inputs := rest }) hne hs hx

end RecordedError

/-- Settles O14: an erroneous word only raises its error, whose capture depends on ERR; a recorded error outlives every
step that neither resets nor runs CLRSTAT. -/
theorem firstErrorIsKept : Obligations.FirstErrorIsKept := by
  refine ⟨fun s w e he => ?raise, fun n s t herr hno hrun => ?run⟩
  case raise =>
    exact ⟨_, step_offer_error s he, rfl, fun h => Block.captureError_of_not_err h e w,
      fun h => Block.captureError_of_err h e w⟩
  case run =>
    obtain ⟨herr', hcause, herrword⟩ := runSteps_keeps_of_noResetNor
      (P := fun u => u.block.HoldsError s.block.cause s.block.errword)
      (fun _ _ => step_keeps_recorded_error) n hno ⟨herr, rfl, rfl⟩ hrun
    exact ⟨herr', hcause, herrword⟩

end Sys2Proof.Machine

/-! SUPPORT and PROOFS. The family of reset and hazards: what reset sets, and that the state it leaves is consistent (R230,
R232). -/

namespace Sys2Proof.Machine

/-- Settles O10: the step takes the reset off the inputs and puts `Block.reset`, the table of R230, in place of the
block. -/
theorem resetSetsEveryElement : Obligations.ResetSetsEveryElement := fun s => step_of_reset s.offerReset_inputs

/-- Reset clears ERR together with CAUSE and ERRWORD, so no error is recorded (R230). -/
theorem Block.reset_errorRecordOk : Block.reset.ErrorRecordOk := ⟨fun _ => ⟨rfl, rfl⟩, fun herr => nomatch herr⟩

theorem State.reset_inv : State.reset.Inv := ⟨Block.reset_fresh, Block.reset_errorRecordOk⟩

/-- Settles O11: DIRTY is 0, so R26 at reset gives the frame; STATUS is the reset value of its layout. -/
theorem resetStateIsFresh : Obligations.ResetStateIsFresh := by
  have hdirty : State.reset.block.dirty = false := rfl
  exact ⟨Block.reset_fresh hdirty, hdirty, statusLayout.1, State.reset_inv⟩

end Sys2Proof.Machine

/-! SUPPORT and PROOFS. The remaining family: the decoder and the encoder as inverses of each other (R70 to R73, D30),
what every step keeps and how the host reaches the block (R29 to R31, R40, R63, R81, R235), the reference lifecycle
(R85, R234), and the assembler (R84, R85). -/

namespace Sys2Proof

/-! ## Decoding and encoding -/

/-- Settles O2: the decoder reads each field of the word the encoder lays out. -/
theorem decodeOfEncodeIsIdentity : Obligations.DecodeOfEncodeIsIdentity := fun _ => decode_encode

/-- Settles O3: an accepted word has no required-zero bit set, so its fields are all of it. -/
theorem encodeOfDecodeIsIdentity : Obligations.EncodeOfDecodeIsIdentity := fun _ _ => encode_of_decode

/-- Settles O1: each word is decoded by evaluation. -/
theorem decodesWordsOfTheSpec : Obligations.DecodesWordsOfTheSpec := by
  unfold Obligations.DecodesWordsOfTheSpec
  decide

/-- Settles O4: each field as arithmetic on the number of the word; the sign bit of VAL decides its sign. -/
theorem operandFieldsAsNumbers : Obligations.OperandFieldsAsNumbers := by
  intro w
  refine ⟨opField_eq w, idxField_eq w, ?_, valField_fits w⟩
  rw [valField_eq]
  split_ifs <;> omega

/-- A command's word is made of its opcode and of the low bits of its operands (log 11). -/
theorem encode_congr {i j : Instr} (hop : i.opcode = j.opcode) (hidx : BitVec.ofNat 6 i.idx = BitVec.ofNat 6 j.idx)
    (hval : BitVec.ofInt 16 i.val = BitVec.ofInt 16 j.val) : encode i = encode j := by
  rw [encode, encode, hop, hidx, hval]

/-- The index field holds an index cut to 6 bits. -/
theorem ofNat_mod_64 (k : Nat) : BitVec.ofNat 6 k = BitVec.ofNat 6 (k % 64) := by
  apply BitVec.eq_of_toNat_eq
  rw [BitVec.toNat_ofNat, BitVec.toNat_ofNat, Nat.mod_mod]

/-! ## Commands by their words -/

/-- Commands of different opcodes have different words. -/
theorem encode_ne_of_opcode_ne {i j : Instr} (h : i.opcode ≠ j.opcode) : encode i ≠ encode j := by
  intro heq
  obtain ⟨-, hi⟩ := Laws.OpcodeField.of_instr i
  obtain ⟨-, hj⟩ := Laws.OpcodeField.of_instr j
  rw [heq, hj] at hi
  exact h (Option.some.inj hi).symm

/-- An accepted word is that of a given well-formed command exactly when it decodes to it. -/
theorem eq_encode_iff {w : Word} {i j : Instr} (hj : j.WellFormed) (hd : decode w = .command i) :
    w = encode j ↔ i = j := by
  rw [← decode_eq_command_iff_eq_encode hj, hd, Decoded.command.injEq]

/-! ## Words on a byte-wide link -/

/-- The four bytes of a word joined again, most significant first. -/
theorem append_bytes (w : Word) :
    w.extractLsb' 24 8 ++ w.extractLsb' 16 8 ++ w.extractLsb' 8 8 ++ w.extractLsb' 0 8 = w := by
  rw [BitVec.extractLsb'_append_extractLsb'_eq_extractLsb' (start₂ := 24) (start₁ := 16) rfl,
    BitVec.extractLsb'_append_extractLsb'_eq_extractLsb' (start₂ := 16) (start₁ := 8) rfl,
    BitVec.extractLsb'_append_extractLsb'_eq_extractLsb' (start₂ := 8) (start₁ := 0) rfl, BitVec.extractLsb'_eq_self]

theorem wordOfBytes_bytesOfWord (order : ByteOrder) (w : Word) :
    ∃ b0 b1 b2 b3, bytesOfWord order w = [b0, b1, b2, b3] ∧ wordOfBytes order b0 b1 b2 b3 = w := by
  cases order with
  | littleEndian => exact ⟨_, _, _, _, rfl, append_bytes w⟩
  | bigEndian => exact ⟨_, _, _, _, rfl, append_bytes w⟩

/-- Settles O7: the four bytes join to the word again, and the decoder reads the command off it. -/
theorem linkBytesRoundTrip : Obligations.LinkBytesRoundTrip := by
  refine ⟨wordOfBytes_bytesOfWord, fun i rest hwf => ?_⟩
  obtain ⟨b0, b1, b2, b3, hbytes, hword⟩ := wordOfBytes_bytesOfWord Config.cmdWordByteOrder (encode i)
  rw [encodeBytes, hbytes]
  simp only [List.cons_append, List.nil_append, decodeBytes, hword, decode_encode hwf]

end Sys2Proof

namespace Sys2Proof.Machine

/-! ## R29 to R31: the error record -/

/-- A command that keeps ERR, CAUSE and ERRWORD keeps their agreement. -/
theorem Block.ErrorRecordOk.congr {b b' : Block} (h : b.ErrorRecordOk) (he : b'.err = b.err)
    (hc : b'.cause = b.cause) (hw : b'.errword = b.errword) : b'.ErrorRecordOk := by
  unfold Block.ErrorRecordOk
  rw [he, hc, hw]
  exact h

/-- Capturing the error a word raises records that word with its cause, or changes nothing. -/
theorem Block.ErrorRecordOk.captureError {b : Block} (h : b.ErrorRecordOk) {e : CmdError} {w : Word}
    (he : errorOf w = some e) : (b.captureError e w).ErrorRecordOk := by
  cases herr : b.err with
  | true => exact (Block.captureError_of_err herr e w).symm ▸ h
  | false =>
    rw [Block.captureError_of_not_err herr e w]
    exact ⟨nofun, fun _ => ⟨e, he, rfl⟩⟩

theorem Block.clearStatus_errorRecordOk (b : Block) : b.clearStatus.ErrorRecordOk := ⟨fun _ => ⟨rfl, rfl⟩, nofun⟩

/-- A command that was decoded keeps the error record: if it raises BAD_INDEX, then with its own word. -/
theorem exec_keeps_errorRecord {w : Word} {i : Instr} {s t : State} (hd : decode w = .command i)
    (hs : s.block.ErrorRecordOk) (h : exec i s = .next t) : t.block.ErrorRecordOk := by
  obtain hb | ⟨-, hb⟩ | ⟨ch, v, hc, -, hb⟩ | ⟨v, -, hb⟩ | ⟨-, hb⟩ | ⟨-, hb⟩ | ⟨hbad, hb⟩ :=
    exec_block_cases h <;> rw [hb]
  · exact hs
  · exact hs.congr rfl rfl rfl
  · exact hs.congr rfl rfl rfl
  · exact hs.congr (s.block.pushValue_err v) (s.block.pushValue_cause v) (s.block.pushValue_errword v)
  · exact hs.congr rfl rfl rfl
  · exact s.block.clearStatus_errorRecordOk
  · rw [(encode_of_decode hd).2]
    exact hs.captureError ((errorOf_eq_badIndex_iff hd).2 hbad)

/-- Settles O42: reset clears the record, and every error is raised with the word that raises it. -/
theorem stepKeepsTheErrorRecord : Obligations.StepKeepsTheErrorRecord := by
  intro s t hs h
  obtain ⟨-, rfl⟩ | ⟨_, -, rfl⟩ | ⟨w, _, e, -, hd, rfl⟩ | ⟨w, rest, i, -, hd, hx⟩ := step_cases h
  · exact hs
  · exact Block.reset_errorRecordOk
  · exact hs.captureError (errorOf_of_malformed hd)
  · exact exec_keeps_errorRecord (s := { s with inputs := rest }) hd hs hx

/-- Settles O13: the codes of R200, by the definition of `Cause.code`. -/
theorem causeCodes : Obligations.CauseCodes := ⟨rfl, rfl, rfl, rfl⟩

/-- Settles O57: the index is past its range, and the recorded word holds the operands cut to their fields. -/
theorem illFormedIndexRaisesBadIndex : Obligations.IllFormedIndexRaisesBadIndex := by
  intro s k v
  refine ⟨fun h => ?load, fun h => ?rdfb, fun h => ?rdch⟩
  case load =>
    have hword : encode (.load k v) = encode (.load (k % 64) (BitVec.ofInt 16 v).toInt) :=
      encode_congr rfl (ofNat_mod_64 k) BitVec.ofInt_toInt.symm
    rw [exec_load_of_ge s k v h, hword]
  case rdfb =>
    have hword : encode (.rdfb k) = encode (.rdfb (k % 64)) := encode_congr rfl (ofNat_mod_64 k) rfl
    rw [exec_rdfb_of_ge s k h, hword]
  case rdch =>
    have hword : encode (.rdch k) = encode (.rdch (k % 64)) := encode_congr rfl (ofNat_mod_64 k) rfl
    rw [exec_rdch_of_ge s k h, hword]

/-! ## Steps and inputs -/

theorem decodeTableWord_eq_some {nbits w : Nat} {i : Instr} (h : decodeTableWord nbits w = some i) :
    decode (tableWord nbits w) = .command i := by
  unfold decodeTableWord at h
  split at h
  · cases h
    assumption
  · cases h

/-- Settles O8: `withFetchWord` offers the table's word, and a step takes the word offered. -/
theorem stepRunsTheDecodedCommand : Obligations.StepRunsTheDecodedCommand :=
  ⟨fun s _ _ => step_offer_command s, fun s _ _ _ h => step_offer_command s (decodeTableWord_eq_some h)⟩

/-- Settles O9: with no input there is nothing to take. -/
theorem idleStepHoldsTheState : Obligations.IdleStepHoldsTheState := fun _ => step_of_no_input

/-- A run of no more steps than there are inputs takes them one by one, whatever waits behind them. -/
theorem runSteps_with_later_inputs (later : List Input) {n : Nat} {s t : State} (hn : n ≤ s.inputs.length)
    (hrun : runSteps n s = .next t) :
    runSteps n { s with inputs := s.inputs ++ later } = .next { t with inputs := t.inputs ++ later } ∧
      t.inputs = s.inputs.drop n := by
  induction n generalizing s with
  | zero => cases hrun; exact ⟨rfl, rfl⟩
  | succ n ih =>
    have hne : s.inputs ≠ [] := List.ne_nil_of_length_pos (by omega)
    obtain ⟨u, hu, hlater⟩ := step_with_later_inputs hne
    have htail : u.inputs = s.inputs.tail := step_inputs hu
    rw [runSteps_succ_of_step n hu] at hrun
    obtain ⟨hrun', hinputs⟩ := ih (by rw [htail, List.length_tail]; omega) hrun
    exact ⟨(runSteps_succ_of_step n (hlater later)).trans hrun', by rw [hinputs, htail, List.drop_tail]⟩

/-- Settles O16: the run takes its inputs one by one, and none of its steps sees the later ones. -/
theorem stepsNeverLookAhead : Obligations.StepsNeverLookAhead := by
  intro n s t xs later hn hrun
  exact runSteps_with_later_inputs later (s := { s with inputs := xs }) hn hrun

/-- Settles O17: a new input only goes behind the others, where the step that takes an earlier one does not look. -/
theorem hostReachesTheBlockOnlyThroughInputs : Obligations.HostReachesTheBlockOnlyThroughInputs := by
  intro s w
  refine ⟨rfl, rfl, rfl, rfl, rfl, rfl, rfl, rfl, fun x hx => ?_⟩
  have hne : s.inputs ≠ [] := by
    intro hnil
    simp [hnil] at hx
  obtain ⟨t, ht, hlater⟩ := step_with_later_inputs hne
  rw [ht]
  exact ⟨hlater [.command w], hlater [.reset]⟩

/-! ## R135: the width of the byte formula -/

/-- Settles O36: the three bytes as arithmetic modulo at most 4096. -/
theorem formulaReadsTwelveBits : Obligations.FormulaReadsTwelveBits := by
  intro first second
  refine ⟨?hi, ?mid, ?lo⟩ <;> apply BitVec.eq_of_toNat_eq
  case hi =>
    rw [byteHi_toNat, byteHi_toNat]
    omega
  case mid =>
    rw [byteMid_toNat, byteMid_toNat]
    omega
  case lo =>
    rw [byteLo_toNat, byteLo_toNat]
    omega

/-! ## R40: the reads determine the block -/

theorem Cause.code_injective : Function.Injective Cause.code := by
  intro c c' h
  cases c <;> cases c' <;> revert h <;> decide

/-- Two blocks with the same elements are the same. -/
theorem Block.eq_of_elements {b b' : Block} (hch : b.ch = b'.ch) (hfb : b.fb = b'.fb) (hwptr : b.wptr = b'.wptr)
    (hdirty : b.dirty = b'.dirty) (herr : b.err = b'.err) (hcause : b.cause = b'.cause)
    (herrword : b.errword = b'.errword) (hlo : b.clampLo = b'.clampLo) (hhi : b.clampHi = b'.clampHi)
    (hovf : b.ovf = b'.ovf) : b = b' := by
  cases b
  cases b'
  simp_all

/-- STATUS shows every element but CH, FB and ERRWORD (R35). -/
theorem Block.eq_of_status_eq {b b' : Block} (hch : b.ch = b'.ch) (hfb : b.fb = b'.fb)
    (hstatus : b.status = b'.status) (herrword : b.errword = b'.errword) : b = b' := by
  obtain ⟨hdirty, herr, hlo, hhi, hovf⟩ := b.status_flags
  obtain ⟨hdirty', herr', hlo', hhi', hovf'⟩ := b'.status_flags
  have hwptr : b.wptr = b'.wptr := Fin.ext (by rw [← b.status_wptr, ← b'.status_wptr, hstatus])
  have hcause : b.cause = b'.cause :=
    Cause.code_injective (by rw [← b.status_cause, ← b'.status_cause, hstatus])
  rw [hstatus] at hdirty herr hlo hhi hovf
  exact Block.eq_of_elements hch hfb hwptr (hdirty.symm.trans hdirty') (herr.symm.trans herr') hcause herrword
    (hlo.symm.trans hlo') (hhi.symm.trans hhi') (hovf.symm.trans hovf')

/-- A read that two states answer alike gives the same data in both. -/
theorem data_eq_of_answers_alike {i : Instr} {data : Block → Word} {s s' : State}
    (hexec : ∀ u, exec i u = .next (u.respondData (data u.block))) (hc : s.completions = s'.completions)
    (halike : ∀ t t' : State, exec i s = .next t → exec i s' = .next t' → t.completions = t'.completions) :
    data s.block = data s'.block := by
  simpa [hc] using halike _ _ (hexec s) (hexec s')

/-- Zero-extension loses nothing. -/
theorem eq_of_setWidth_eq {n m : Nat} (h : n ≤ m) {x y : BitVec n} (hxy : x.setWidth m = y.setWidth m) : x = y := by
  have := congrArg BitVec.toNat hxy
  rw [BitVec.toNat_setWidth_of_le h, BitVec.toNat_setWidth_of_le h] at this
  exact BitVec.eq_of_toNat_eq this

/-- Settles O43: RDCH and RDFB give CH and FB element by element, RDERR ERRWORD, and RDSTAT everything else. -/
theorem everyElementCanBeReadBack : Obligations.EveryElementCanBeReadBack := by
  intro s s' hc hreads
  refine Block.eq_of_status_eq ?ch ?fb ?status ?errword
  case ch =>
    refine Vector.ext fun k hk => eq_of_setWidth_eq (m := 32) (by decide) ?_
    exact data_eq_of_answers_alike (data := fun b => b.ch[k].setWidth 32) (fun u => exec_rdch_of_lt u k hk) hc
      (hreads _ (.inl ⟨k, hk, rfl⟩))
  case fb =>
    refine Vector.ext fun k hk => eq_of_setWidth_eq (m := 32) (by decide) ?_
    exact data_eq_of_answers_alike (data := fun b => b.fb[k].setWidth 32) (fun u => exec_rdfb_of_lt u k hk) hc
      (hreads _ (.inr (.inl ⟨k, hk, rfl⟩)))
  case status => exact data_eq_of_answers_alike exec_rdstat hc (hreads _ (.inr (.inr (.inl rfl))))
  case errword => exact data_eq_of_answers_alike exec_rderr hc (hreads _ (.inr (.inr (.inr rfl))))

/-! ## R235: FB and the frames sent -/

/-- Only ENCODE writes FB (R25). -/
theorem exec_keeps_fb {i : Instr} {s t : State} (hi : i ≠ .encode) (h : exec i s = .next t) :
    t.block.fb = s.block.fb := by
  obtain hb | ⟨-, hb⟩ | ⟨ch, v, hc, -, hb⟩ | ⟨v, -, hb⟩ | ⟨hencode, -⟩ | ⟨-, hb⟩ | ⟨-, hb⟩ := exec_block_cases h
  · rw [hb]
  · rw [hb, Block.clearChannels_fb]
  · rw [hb, Block.writeClamped_fb]
  · rw [hb, Block.pushValue_fb]
  · exact absurd hencode hi
  · rw [hb, Block.clearStatus_fb]
  · rw [hb, Block.captureError_fb]

/-- Only XMIT emits a frame, FB in transmission order (R39, R160). -/
theorem exec_frames {i : Instr} {s t : State} (h : exec i s = .next t) :
    t.frames = s.frames ∨ i = .xmit ∧ t.frames = s.frames ++ [txOrder s.block.fb] := by
  by_cases hbad : BadIndex i
  · rw [exec_of_badIndex hbad] at h
    cases h
    exact .inl rfl
  · obtain ⟨-, -, b, hx⟩ | ⟨-, d, hx⟩ | ⟨rfl, -⟩ := exec_of_not_badIndex hbad s
    · cases hx.symm.trans h
      exact .inl rfl
    · cases hx.symm.trans h
      exact .inl rfl
    · cases h
      exact .inr ⟨rfl, rfl⟩

/-- A step that takes neither reset nor ENCODE's word keeps FB, and emits nothing but FB. -/
theorem step_without_encode {s t : State} (hno : NoResetNor 0x40000000 s.inputs) (h : step s = .next t) :
    t.block.fb = s.block.fb ∧ (t.frames = s.frames ∨ t.frames = s.frames ++ [txOrder s.block.fb]) := by
  obtain ⟨hreset, hencode⟩ := hno
  obtain ⟨-, rfl⟩ | ⟨_, hi, -⟩ | ⟨w, _, e, -, -, rfl⟩ | ⟨w, rest, i, hi, hd, hx⟩ := step_cases h
  · exact ⟨rfl, .inl rfl⟩
  · exact absurd (hi ▸ List.mem_cons_self) hreset
  · exact ⟨s.block.captureError_fb e w, .inl rfl⟩
  · have hne : i ≠ .encode := by
      rintro rfl
      have hword : w = 0x40000000 := (eq_encode_iff rfl hd).2 rfl
      exact hencode (hi ▸ hword ▸ List.mem_cons_self)
    exact ⟨exec_keeps_fb (s := { s with inputs := rest }) hne hx, (exec_frames hx).imp_right And.right⟩

/-- Since `s` FB is as it was, and every frame emitted is that FB. -/
def OnlyOldFrameSent (s t : State) : Prop :=
  t.block.fb = s.block.fb ∧ ∃ m, t.frames = s.frames ++ List.replicate m (txOrder s.block.fb)

theorem OnlyOldFrameSent.refl (s : State) : OnlyOldFrameSent s s := ⟨rfl, 0, by simp⟩

theorem OnlyOldFrameSent.step {s t u : State} (hno : NoResetNor 0x40000000 t.inputs) (hs : OnlyOldFrameSent s t)
    (h : step t = .next u) : OnlyOldFrameSent s u := by
  obtain ⟨hfb, m, hframes⟩ := hs
  obtain ⟨hfb', hframes' | hframes'⟩ := step_without_encode hno h
  · exact ⟨hfb'.trans hfb, m, hframes'.trans hframes⟩
  · refine ⟨hfb'.trans hfb, m + 1, ?_⟩
    rw [hframes', hframes, hfb, List.replicate_succ', List.append_assoc]

/-- Settles O47: each step keeps FB and emits at most FB, so the run adds some number of copies of it. -/
theorem withoutEncodeTheOldFrameIsSent : Obligations.WithoutEncodeTheOldFrameIsSent := fun n s _ hno hrun =>
  runSteps_keeps_of_noResetNor (P := OnlyOldFrameSent s) (fun _ _ => OnlyOldFrameSent.step) n hno (.refl s) hrun

/-! ## R85, R234: LOADLIST and FRAME -/

/-- A step that takes neither reset nor XMIT's word emits no frame. -/
theorem step_without_xmit {s t : State} (hno : NoResetNor 0x50000000 s.inputs) (h : step s = .next t) :
    t.frames = s.frames := by
  obtain ⟨-, hxmit⟩ := hno
  obtain ⟨-, rfl⟩ | ⟨_, -, rfl⟩ | ⟨_, _, _, -, -, rfl⟩ | ⟨w, rest, i, hi, hd, hx⟩ := step_cases h
  · rfl
  · rfl
  · rfl
  · obtain hframes | ⟨rfl, -⟩ := exec_frames hx
    · exact hframes
    · have hword : w = 0x50000000 := (eq_xmit_iff hd).2 rfl
      exact absurd (hi ▸ hword ▸ List.mem_cons_self) hxmit

/-- The inputs that hand over commands hold no reset, and no word of another opcode. -/
theorem noResetNor_commandInputs {j : Instr} {cmds : List Instr} (h : ∀ i ∈ cmds, i.opcode ≠ j.opcode) :
    NoResetNor (encode j) (commandInputs cmds) := by
  constructor
  · simp [commandInputs]
  · simp only [commandInputs, List.mem_map, Input.command.injEq, not_exists, not_and]
    exact fun i hi => encode_ne_of_opcode_ne (h i hi)

theorem pseudoLoadlist_eq (xs : List Int) : pseudoLoadlist xs = .clear :: (xs.map sat16).map .push := by
  rw [pseudoLoadlist, List.map_map]
  rfl

/-- LOADLIST of any integers leaves the clamped list in the channels and emits nothing. -/
theorem runSteps_loadlist (s : State) (xs : List Int) (rest : List Input) : ∃ t : State,
    runSteps (xs.length + 1) { s with inputs := commandInputs (pseudoLoadlist xs) ++ rest } = .next t ∧
    t.inputs = rest ∧ t.frames = s.frames ∧
    ∀ (k : Nat) (_ : k < 24), t.block.ch[k] = (xs[k]?.map clamp12).getD 0 := by
  have hfits : ∀ v ∈ xs.map sat16, ValFits v := List.forall_mem_map.2 fun x _ => sat16_fits x
  obtain ⟨t, hrun, hnil, hch, -⟩ := clearThenPushesFillInOrder { s with inputs := [] } (xs.map sat16) hfits
  simp only [List.append_nil, ← pseudoLoadlist_eq, List.length_map] at hrun
  have hword : encode .xmit = 0x50000000 := by decide
  have hno : NoResetNor 0x50000000 (commandInputs (pseudoLoadlist xs)) :=
    hword ▸ noResetNor_commandInputs (by simp [pseudoLoadlist, pseudoPushi, Instr.opcode])
  have hframes : t.frames = s.frames := runSteps_keeps_of_noResetNor
    (s := { s with inputs := commandInputs (pseudoLoadlist xs) }) (P := fun u => u.frames = s.frames)
    (fun _ _ hno' hu h => (step_without_xmit hno' h).trans hu) _ hno rfl hrun
  have hlen : xs.length + 1 ≤ (commandInputs (pseudoLoadlist xs)).length := by simp [commandInputs, pseudoLoadlist]
  obtain ⟨hrun', -⟩ := runSteps_with_later_inputs rest hlen hrun
  refine ⟨_, hrun', by simp [hnil], hframes, fun k hk => ?_⟩
  have hclamp : clamp12 ∘ sat16 = clamp12 := funext clamp12_sat16
  rw [hch k hk, List.getElem?_map, Option.map_map, hclamp]

/-- FRAME latches the channels and sends what it latched. -/
theorem runSteps_frame (s : State) : ∃ t : State,
    runSteps 2 { s with inputs := commandInputs pseudoFrame ++ s.inputs } = .next t ∧
    t.inputs = s.inputs ∧ t.block = s.block.latchFrame ∧ t.frames = s.frames ++ [txOrder s.block.latchFrame.fb] := by
  have hencode := runSteps_command (decode_encode (i := .encode) rfl) (exec_encode s) 1
    (.command (encode .xmit) :: s.inputs)
  have hxmit := runSteps_command (decode_encode (i := .xmit) rfl) (exec_xmit (s.setBlock s.block.latchFrame).respond) 0
    s.inputs
  exact ⟨_, hencode.trans hxmit, rfl, rfl, rfl⟩

/-- Settles O48: LOADLIST fills the channels with the clamped list, FRAME sends their frame, and decoding inverts it. -/
theorem loadListThenFrameSendsTheClampedList : Obligations.LoadListThenFrameSendsTheClampedList := by
  intro s xs
  obtain ⟨t, hload, hinputs, hframes, hch⟩ := runSteps_loadlist s xs (commandInputs pseudoFrame ++ s.inputs)
  obtain ⟨u, hframe, hinputs', hblock, hframes'⟩ := runSteps_frame { t with inputs := s.inputs }
  have hsplit : commandInputs (pseudoLoadlist xs ++ pseudoFrame) ++ s.inputs =
      commandInputs (pseudoLoadlist xs) ++ (commandInputs pseudoFrame ++ s.inputs) := by
    simp [commandInputs]
  refine ⟨u, ?run, hinputs', ?frames, ?dirty, fun k hk => ?channels⟩
  case run =>
    rw [hsplit, runSteps_add (xs.length + 1) 2 hload, ← hframe, ← hinputs]
  case frames => rw [hframes', hblock, ← hframes]
  case dirty => rw [hblock, Block.latchFrame_dirty]
  case channels =>
    rw [hblock, Block.latchFrame_fb, decodeFrame_encodeFrame]
    exact hch k hk

/-! ## R85: SETALL -/

/-- LOAD's effect at a channel that is there. -/
def Block.writeChannel (v : Int) (b : Block) (k : Fin 24) : Block := b.writeClamped k.val k.isLt v

theorem pseudoSetall_eq (x : Int) :
    pseudoSetall x = (List.finRange 24).map fun k => .load k.val (sat16 x) := by
  rw [pseudoSetall, ← List.map_coe_finRange_eq_range, List.map_map]
  rfl

/-- Writing some channels one after the other leaves each of them at the clamped value, and FB and WPTR alone. -/
theorem Block.foldl_writeChannel (v : Int) (ks : List (Fin 24)) (b : Block) :
    (∀ k : Fin 24, (ks.foldl (Block.writeChannel v) b).ch[k] = if k ∈ ks then clamp12 v else b.ch[k]) ∧
    (ks.foldl (Block.writeChannel v) b).fb = b.fb ∧ (ks.foldl (Block.writeChannel v) b).wptr = b.wptr := by
  induction ks generalizing b with
  | nil => simp
  | cons j ks ih =>
    obtain ⟨hch, hfb, hwptr⟩ := ih (Block.writeChannel v b j)
    refine ⟨fun k => ?_, hfb, hwptr⟩
    rw [List.foldl_cons, hch k]
    by_cases hj : j = k
    · subst hj
      simp [Block.writeChannel]
    · have hne : j.val ≠ k.val := fun h => hj (Fin.ext h)
      simp [Block.writeChannel, hne, Ne.symm hj]

/-- Settles O49: the 24 LOADs write every channel, each with the saturated value, which clamps to the same. -/
theorem setallSetsEveryChannel : Obligations.SetallSetsEveryChannel := by
  intro s x
  have hwf : ∀ k ∈ List.finRange 24, (Instr.load k.val (sat16 x)).WellFormed := by
    intro k _
    have hv := sat16_fits x
    have hk : IdxFits k.val := by omega
    simp [Instr.WellFormed, Instr.wf, hk, hv]
  obtain ⟨t, hrun, hinputs, hblock⟩ := runSteps_commands_of_effect (fun k : Fin 24 => .load k.val (sat16 x))
    (Block.writeChannel (sat16 x)) (fun k s => exec_load_of_lt s k.val (sat16 x) k.isLt) (List.finRange 24) hwf s
    s.inputs
  obtain ⟨hch, hfb, hwptr⟩ := Block.foldl_writeChannel (sat16 x) (List.finRange 24) s.block
  rw [← hblock] at hch hfb hwptr
  rw [← pseudoSetall_eq, List.length_finRange] at hrun
  refine ⟨t, hrun, hinputs, Vector.ext fun k hk => ?_, hfb, hwptr⟩
  simpa [clamp12_sat16] using hch ⟨k, hk⟩

/-! ## R22, R25, R27 to R34: the writers of each element -/

/-- The captured cause is the first error's (R202). -/
theorem Block.captureError_cause (b : Block) (e : CmdError) (w : Word) :
    (b.captureError e w).cause = if b.err = true then b.cause else errorCause e := by
  unfold Block.captureError
  split <;> rfl

/-- The captured word is the first error's (R202). -/
theorem Block.captureError_errword (b : Block) (e : CmdError) (w : Word) :
    (b.captureError e w).errword = if b.err = false then w else b.errword := by
  cases h : b.err <;> simp [Block.captureError, h]

/-- A word that fails a check is the word of no well-formed command whose index is in range. -/
theorem ne_encode_of_errorOf {w : Word} {e : CmdError} {j : Instr} (he : errorOf w = some e) (hj : j.WellFormed)
    (hindex : ¬ BadIndex j) : w ≠ encode j := by
  rintro rfl
  obtain hnone | hbad := errorOf_of_command (decode_encode hj)
  · cases he.symm.trans hnone
  · exact hindex ((errorOf_eq_badIndex_iff_badIndex (decode_encode hj)).1 hbad)

/-- Settles O44: a word that fails a check only captures its error; any other is the word of its command, whose effect
on the block is compared with the rules command by command. -/
theorem elementsChangeOnlyByTheirWriters : Obligations.ElementsChangeOnlyByTheirWriters := by
  intro s t w h
  have hclear : encode .clear = 0x10000000 := by decide
  have hencode : encode .encode = 0x40000000 := by decide
  have hclrstat : encode .clrstat = 0xA0000000 := by decide
  rw [← hclear, ← hencode, ← hclrstat]
  cases he : errorOf w with
  | some e =>
    rw [step_offer_error s he] at h
    cases h
    have hne : w ≠ encode .clear ∧ w ≠ encode .encode ∧ w ≠ encode .clrstat :=
      ⟨ne_encode_of_errorOf he rfl id, ne_encode_of_errorOf he rfl id, ne_encode_of_errorOf he rfl id⟩
    simp [hne, Block.captureError_cause, Block.captureError_errword]
  | none =>
    obtain ⟨i, hd, ho, hbad⟩ := decode_of_errorOf_none he
    obtain ⟨hwf, rfl⟩ := encode_of_decode hd
    rw [step_offer_command s hd] at h
    simp only [ho, idxField_encode hwf, valField_encode hwf, eq_encode_iff (j := .clear) rfl hd,
      eq_encode_iff (j := .encode) rfl hd, eq_encode_iff (j := .clrstat) rfl hd]
    cases i with
    | nop | clear | encode | xmit | rdstat | rderr | clrstat =>
      cases h
      simp [Instr.opcode, Opcode.code]
    | load ch v =>
      rw [exec_load_of_lt s ch v (Nat.not_le.1 hbad)] at h
      cases h
      simp [Instr.opcode, Opcode.code, Instr.idx, Instr.val, Vector.getElem_set, eq_comm (a := ch), Bool.or_comm]
    | push v =>
      cases h
      by_cases hw : s.block.wptr.val < 24
      · simp [Instr.opcode, Opcode.code, Instr.val, s.block.pushValue_of_lt v hw, hw, hw.ne, Vector.getElem_set,
          eq_comm (b := s.block.wptr.val), Bool.or_comm]
      · have hfull : s.block.wptr.val = 24 := by omega
        simp [Instr.opcode, Opcode.code, Instr.val, s.block.pushValue_of_full v hfull, hfull]
    | rdfb k =>
      rw [exec_rdfb_of_lt s k (Nat.not_le.1 hbad)] at h
      cases h
      simp [Instr.opcode, Opcode.code]
    | rdch k =>
      rw [exec_rdch_of_lt s k (Nat.not_le.1 hbad)] at h
      cases h
      simp [Instr.opcode, Opcode.code]

/-! ## R84, R85: the assembler -/

/-! ### Rows of the table -/

/-- The table assembles the mnemonic `m`, in capitals and not the directive `.word`, by `f`. -/
structure IsRow (m : String) (f : List (List Char) → Option (List Instr)) : Prop where
  upper : m.toList.map Char.toUpper = m.toList
  not_word : m.toList ≠ ".WORD".toList
  find : asmTable.find? (fun row => row.1.toList == m.toList) = some (m, f)

section Row

variable {m : String} {α : Type} {a b : List Char}

theorem IsRow.assemble_eq {f : List (List Char) → Option (List Instr)} (h : IsRow m f) (ops : List (List Char)) :
    assemble m.toList ops = (f ops).map fun cmds => cmds.map encode :=
  assemble_of_row ops h.upper h.not_word h.find

theorem IsRow.assemble_noOperand {cmds : List Instr} (h : IsRow m (asmNoOperand cmds)) :
    assemble m.toList [] = some (cmds.map encode) :=
  h.assemble_eq []

theorem IsRow.assemble_oneOperand {read : List Char → Option α} {mk : α → List Instr} {v : α}
    (h : IsRow m (asmOneOperand read mk)) (ha : read a = some v) :
    assemble m.toList [a] = some ((mk v).map encode) := by
  rw [h.assemble_eq, asmOneOperand, ha]
  rfl

theorem IsRow.assemble_twoOperands {read : List Char → Option Int} {mk : Nat → Int → Instr} {k : Nat} {v : Int}
    (h : IsRow m (asmTwoOperands read mk)) (ha : parseIndex a = some k) (hb : read b = some v) :
    assemble m.toList [a, b] = some [encode (mk k v)] := by
  rw [h.assemble_eq, asmTwoOperands, ha, hb]
  rfl

end Row

/-- A word's letters count alike in either case (R84). -/
theorem assemble_map_toUpper (m : List Char) (ops : List (List Char)) :
    assemble (m.map Char.toUpper) ops = assemble m ops := by
  have hupper : (m.map Char.toUpper).map Char.toUpper = m.map Char.toUpper := by
    rw [List.map_map]
    exact List.map_congr_left fun c _ => toUpper_toUpper c
  unfold assemble
  rw [hupper]

/-- Settles O50: each mnemonic's row, and the words of the commands with operands as R104, R105, R161 and R162 write
them. -/
theorem assemblerSyntaxTable : Obligations.AssemblerSyntaxTable := by
  refine ⟨assemble_map_toUpper,
    IsRow.assemble_noOperand (cmds := [.nop]) ⟨rfl, by decide, rfl⟩,
    IsRow.assemble_noOperand (cmds := [.clear]) ⟨rfl, by decide, rfl⟩,
    IsRow.assemble_noOperand (cmds := [.encode]) ⟨rfl, by decide, rfl⟩,
    IsRow.assemble_noOperand (cmds := [.xmit]) ⟨rfl, by decide, rfl⟩,
    IsRow.assemble_noOperand (cmds := [.rdstat]) ⟨rfl, by decide, rfl⟩,
    IsRow.assemble_noOperand (cmds := [.rderr]) ⟨rfl, by decide, rfl⟩,
    IsRow.assemble_noOperand (cmds := [.clrstat]) ⟨rfl, by decide, rfl⟩, fun a b k v ha hb => ?_⟩
  have hk : IdxFits k := parseIndex_fits ha
  have hv : ValFits v := parseValue_fits hb
  obtain ⟨-, hload, -⟩ := loadWritesOneChannel
  obtain ⟨-, hpush, -⟩ := pushWritesTheNextChannel
  obtain ⟨-, hrdfb, -⟩ := rdfbReadsOneFrameByte
  obtain ⟨-, hrdch, -⟩ := rdchReadsOneChannel
  have load : IsRow "LOAD" (asmTwoOperands parseValue .load) := ⟨rfl, by decide, rfl⟩
  have push : IsRow "PUSH" (asmOneOperand parseValue fun v => [.push v]) := ⟨rfl, by decide, rfl⟩
  have rdfb : IsRow "RDFB" (asmOneOperand parseIndex fun k => [.rdfb k]) := ⟨rfl, by decide, rfl⟩
  have rdch : IsRow "RDCH" (asmOneOperand parseIndex fun k => [.rdch k]) := ⟨rfl, by decide, rfl⟩
  rw [load.assemble_twoOperands ha hb, push.assemble_oneOperand hb, rdfb.assemble_oneOperand ha,
    rdch.assemble_oneOperand ha, ← hload k v hk hv, ← hpush v hv, ← hrdfb k hk, ← hrdch k hk]
  exact ⟨hk, hv, rfl, rfl, rfl, rfl⟩

/-! ### Everything a row spells is well formed -/

/-- Whatever operands a row accepts, it spells well-formed commands. -/
def SpellsWellFormed (f : List (List Char) → Option (List Instr)) : Prop :=
  ∀ ops cmds, f ops = some cmds → ∀ i ∈ cmds, i.WellFormed

theorem asmNoOperand_spells {cmds : List Instr} (h : ∀ i ∈ cmds, i.WellFormed) :
    SpellsWellFormed (asmNoOperand cmds) := by
  intro ops cmds' hf
  unfold asmNoOperand at hf
  split at hf
  · cases hf
    exact h
  · cases hf

theorem asmOneOperand_spells {α : Type} {read : List Char → Option α} {mk : α → List Instr}
    (h : ∀ t v, read t = some v → ∀ i ∈ mk v, i.WellFormed) : SpellsWellFormed (asmOneOperand read mk) := by
  intro ops cmds hf
  unfold asmOneOperand at hf
  split at hf
  · obtain ⟨v, hv, rfl⟩ := Option.map_eq_some_iff.1 hf
    exact h _ v hv
  · cases hf

theorem asmTwoOperands_spells {read : List Char → Option Int} {mk : Nat → Int → Instr}
    (h : ∀ t k v, IdxFits k → read t = some v → (mk k v).WellFormed) :
    SpellsWellFormed (asmTwoOperands read mk) := by
  intro ops cmds hf
  unfold asmTwoOperands at hf
  split at hf
  · split at hf
    · cases hf
      exact List.forall_mem_singleton.2 (h _ _ _ (parseIndex_fits (by assumption)) (by assumption))
    · cases hf
  · cases hf

theorem Instr.load_wellFormed {k : Nat} {v : Int} (hk : IdxFits k) (hv : ValFits v) : (Instr.load k v).WellFormed :=
  Opcode.command_wellFormed .load hk hv

theorem Instr.push_wellFormed {v : Int} (hv : ValFits v) : (Instr.push v).WellFormed :=
  Opcode.command_wellFormed .push (Nat.zero_le 63) hv

theorem Instr.rdfb_wellFormed {k : Nat} (hk : IdxFits k) : (Instr.rdfb k).WellFormed :=
  Opcode.command_wellFormed (val := 0) .rdfb hk (by decide)

theorem Instr.rdch_wellFormed {k : Nat} (hk : IdxFits k) : (Instr.rdch k).WellFormed :=
  Opcode.command_wellFormed (val := 0) .rdch hk (by decide)

theorem pseudoPushi_wellFormed (x : Int) : (pseudoPushi x).WellFormed := Instr.push_wellFormed (sat16_fits x)

theorem pseudoLoadi_wellFormed {k : Nat} (hk : IdxFits k) (x : Int) : (pseudoLoadi k x).WellFormed :=
  Instr.load_wellFormed hk (sat16_fits x)

theorem pseudoLoadlist_wellFormed (xs : List Int) : ∀ i ∈ pseudoLoadlist xs, i.WellFormed := by
  rw [pseudoLoadlist, List.forall_mem_cons, List.forall_mem_map]
  exact ⟨rfl, fun x _ => pseudoPushi_wellFormed x⟩

theorem pseudoSetall_wellFormed (x : Int) : ∀ i ∈ pseudoSetall x, i.WellFormed := by
  rw [pseudoSetall, List.forall_mem_map]
  intro k hk
  have hlt := List.mem_range.1 hk
  exact pseudoLoadi_wellFormed (by omega) x

theorem asmTable_spells : ∀ row ∈ asmTable, SpellsWellFormed row.2 := by
  have noOperand {i : Instr} (h : i.WellFormed) : SpellsWellFormed (asmNoOperand [i]) :=
    asmNoOperand_spells (List.forall_mem_singleton.2 h)
  simp only [asmTable, List.cons_append, List.nil_append, List.forall_mem_cons]
  refine ⟨noOperand rfl, noOperand rfl, ?load, ?push, noOperand rfl, noOperand rfl, ?rdfb, ?rdch, noOperand rfl,
    noOperand rfl, noOperand rfl, asmNoOperand_spells (by decide), ?loadlist, ?pushi, ?loadi, ?setall, nofun⟩
  case load => exact asmTwoOperands_spells fun _ _ _ hk hv => Instr.load_wellFormed hk (parseValue_fits hv)
  case push =>
    exact asmOneOperand_spells fun _ _ hv => List.forall_mem_singleton.2 (Instr.push_wellFormed (parseValue_fits hv))
  case rdfb =>
    exact asmOneOperand_spells fun _ _ hk => List.forall_mem_singleton.2 (Instr.rdfb_wellFormed (parseIndex_fits hk))
  case rdch =>
    exact asmOneOperand_spells fun _ _ hk => List.forall_mem_singleton.2 (Instr.rdch_wellFormed (parseIndex_fits hk))
  case loadlist =>
    intro ops cmds hf
    obtain ⟨xs, -, rfl⟩ := Option.map_eq_some_iff.1 hf
    exact pseudoLoadlist_wellFormed xs
  case pushi => exact asmOneOperand_spells fun _ x _ => List.forall_mem_singleton.2 (pseudoPushi_wellFormed x)
  case loadi => exact asmTwoOperands_spells fun _ _ x hk _ => pseudoLoadi_wellFormed hk x
  case setall => exact asmOneOperand_spells fun _ x _ => pseudoSetall_wellFormed x

theorem assembleUpper_wellFormed (m : List Char) : SpellsWellFormed (assembleUpper m) := by
  intro ops cmds hf
  unfold assembleUpper at hf
  split at hf
  · rename_i row hrow
    exact asmTable_spells row (List.mem_of_find?_eq_some hrow) ops cmds hf
  · cases hf

/-- Settles O51: every row spells well-formed commands, whose words decode to them. -/
theorem assemblerSpellsOnlyCommands : Obligations.AssemblerSpellsOnlyCommands := by
  intro m ops ws hm hws w hw
  unfold assemble at hws
  rw [if_neg hm] at hws
  obtain ⟨cmds, hcmds, rfl⟩ := Option.map_eq_some_iff.1 hws
  obtain ⟨i, hi, rfl⟩ := List.mem_map.1 hw
  have hwf := assembleUpper_wellFormed _ ops cmds hcmds i hi
  exact ⟨i, hwf, decode_encode hwf⟩

/-! ### The pseudo-instructions -/

theorem parseAll_of_map {read : List Char → Option Int} {ts : List (List Char)} {vs : List Int}
    (h : ts.map read = vs.map some) : parseAll read ts = some vs := by
  induction ts generalizing vs with
  | nil =>
    obtain rfl : vs = [] := List.map_eq_nil_iff.1 h.symm
    rfl
  | cons t ts ih =>
    cases vs with
    | nil => cases h
    | cons v vs =>
      obtain ⟨ht, hts⟩ := List.cons.inj h
      rw [parseAll, ht, ih hts]

/-- Settles O52: each pseudo-instruction's row, with the integers read and saturated. -/
theorem pseudoInstructionExpansions : Obligations.PseudoInstructionExpansions := by
  refine ⟨IsRow.assemble_noOperand (cmds := pseudoFrame) ⟨rfl, by decide, rfl⟩, fun a b k x ha hb => ⟨?pushi, ?loadi,
    ?setall⟩, fun ops xs hops => ?loadlist⟩
  case pushi =>
    exact IsRow.assemble_oneOperand (mk := fun x => [pseudoPushi x]) ⟨rfl, by decide, rfl⟩ hb
  case loadi => exact IsRow.assemble_twoOperands (mk := pseudoLoadi) ⟨rfl, by decide, rfl⟩ ha hb
  case setall =>
    rw [IsRow.assemble_oneOperand (mk := pseudoSetall) ⟨rfl, by decide, rfl⟩ hb, pseudoSetall, List.map_map]
    rfl
  case loadlist =>
    have loadlist : IsRow "LOADLIST" fun ops => (parseAll parseInteger ops).map pseudoLoadlist :=
      ⟨rfl, by decide, rfl⟩
    rw [loadlist.assemble_eq, parseAll_of_map hops, Option.map_some, Option.map_some, pseudoLoadlist, List.map_cons,
      List.map_map]
    rfl

/-! ### Literals -/

section Literal

variable {t : List Char} {n : Nat}

/-- A decimal literal of `n`. -/
def IsDecimal (t : List Char) (n : Nat) : Prop := parseNumber 10 decDigit t = some n

/-- A `0x` literal of `n`. -/
def IsHex (t : List Char) (n : Nat) : Prop := ∃ body, hexBody t = some body ∧ parseNumber 16 hexDigit body = some n

theorem isDecimal_literal (zeros n : Nat) : IsDecimal (List.replicate zeros '0' ++ Nat.toDigits 10 n) n :=
  parseNumber_literal (by decide) decDigit_digitChar zeros n

theorem isHex_of_upper {zeros : Nat}
    (h : t.map Char.toUpper = "0X".toList ++ List.replicate zeros '0' ++ (Nat.toDigits 16 n).map Char.toUpper) :
    IsHex t n := by
  rw [List.append_assoc] at h
  obtain ⟨body, hbody, hupper⟩ := hexBody_of_upper h
  exact ⟨body, hbody, parseNumber_hex hupper⟩

theorem IsDecimal.parseUnsigned_eq (h : IsDecimal t n) : parseUnsigned t = some n := by
  unfold parseUnsigned
  rw [hexBody_of_decimal h]
  exact h

theorem IsHex.parseUnsigned_eq (h : IsHex t n) : parseUnsigned t = some n := by
  obtain ⟨body, hbody, hn⟩ := h
  unfold parseUnsigned
  rw [hbody]
  exact hn

/-- An index is an unsigned number that fits IDX. -/
theorem parseIndex_of_unsigned (h : parseUnsigned t = some n) : parseIndex t = if n ≤ 63 then some n else none := by
  simp only [parseIndex, h]

/-- After a minus sign a decimal literal reads as the negative number. -/
theorem IsDecimal.parseSigned_neg (h : IsDecimal t n) : parseSigned ('-' :: t) = some (-(n : Int)) := by
  simp only [parseSigned, show parseNumber 10 decDigit t = some n from h]
  rfl

/-- A value that is no `0x` literal is a signed decimal that fits VAL. -/
theorem parseValue_of_signed {v : Int} (hhex : hexBody t = none) (h : parseSigned t = some v) :
    parseValue t = if -32768 ≤ v ∧ v ≤ 32767 then some v else none := by
  simp only [parseValue, hhex, h]

/-- A value that is a `0x` literal is a pattern of 16 bits. -/
theorem IsHex.parseValue_eq (h : IsHex t n) :
    parseValue t = if n ≤ 0xFFFF then some (BitVec.ofNat 16 n).toInt else none := by
  obtain ⟨body, hbody, hn⟩ := h
  simp only [parseValue, hbody, hn]

/-- A pattern of 16 bits as a signed integer. -/
theorem toInt_ofNat_16 (h : n ≤ 0xFFFF) :
    (BitVec.ofNat 16 n).toInt = if n < 0x8000 then (n : Int) else (n : Int) - 0x10000 := by
  rw [BitVec.toInt_eq_toNat_cond, BitVec.toNat_ofNat, Nat.mod_eq_of_lt (by omega)]
  split_ifs <;> omega

theorem parseInteger_of_signed {v : Int} (hhex : hexBody t = none) (h : parseSigned t = some v) :
    parseInteger t = some v := by
  simp only [parseInteger, hhex, h]

theorem IsHex.parseInteger_eq (h : IsHex t n) : parseInteger t = some (n : Int) := by
  obtain ⟨body, hbody, hn⟩ := h
  simp only [parseInteger, hbody, hn]
  rfl

theorem IsHex.parseRawWord_eq (h : IsHex t n) :
    parseRawWord t = if n < 2 ^ 32 then some (BitVec.ofNat 32 n) else none := by
  obtain ⟨body, hbody, hn⟩ := h
  simp only [parseRawWord, hbody, hn]

end Literal

theorem hexBody_minus (t : List Char) : hexBody ('-' :: t) = none := by
  unfold hexBody
  split
  · simp_all
  · rfl

/-- Settles O54: both literals read as their number, and each reader then checks whether it fits. -/
theorem assemblerReadsLiterals : Obligations.AssemblerReadsLiterals := by
  intro n zeros hex dec hupper
  have hdec : IsDecimal dec n := isDecimal_literal zeros n
  have hhex : IsHex hex n := isHex_of_upper hupper
  have hplain : hexBody dec = none := hexBody_of_decimal hdec
  have hpos : parseSigned dec = some (n : Int) := parseSigned_of_decimal hdec
  have hneg : parseSigned ('-' :: dec) = some (-(n : Int)) := hdec.parseSigned_neg
  refine ⟨parseIndex_of_unsigned hdec.parseUnsigned_eq, parseIndex_of_unsigned hhex.parseUnsigned_eq, ?value, ?negative,
    ?pattern, parseInteger_of_signed hplain hpos, parseInteger_of_signed (hexBody_minus dec) hneg, hhex.parseInteger_eq,
    hhex.parseRawWord_eq⟩
  case value =>
    rw [parseValue_of_signed hplain hpos]
    exact if_congr (by omega) rfl rfl
  case negative =>
    rw [parseValue_of_signed (hexBody_minus dec) hneg]
    exact if_congr (by omega) rfl rfl
  case pattern =>
    rw [hhex.parseValue_eq]
    by_cases h : n ≤ 0xFFFF
    · rw [if_pos h, toInt_ofNat_16 h, if_pos (show n < 0x10000 by omega)]
      split_ifs <;> rfl
    · rw [if_neg h, if_neg (by omega), if_neg (by omega)]

/-! ### The directive `.word` -/

theorem assemble_word {m : List Char} (hm : m.map Char.toUpper = ".WORD".toList) (a : List Char) :
    assemble m [a] = (parseRawWord a).map fun w => [w] := by
  unfold assemble
  rw [if_pos hm]

theorem assemble_word_of_length_ne_one {m : List Char} (hm : m.map Char.toUpper = ".WORD".toList)
    {ops : List (List Char)} (h : ops.length ≠ 1) : assemble m ops = none := by
  unfold assemble
  rw [if_pos hm]
  split
  · exact absurd rfl h
  · rfl

/-- Settles O56: the operand is a `0x` literal of `n`. -/
theorem rawWordDirective : Obligations.RawWordDirective := by
  intro m hm
  refine ⟨fun n => ?_, fun ops h => assemble_word_of_length_ne_one hm h⟩
  have hupper : ("0x".toList ++ Nat.toDigits 16 n).map Char.toUpper =
      "0X".toList ++ List.replicate 0 '0' ++ (Nat.toDigits 16 n).map Char.toUpper := by
    rw [List.map_append]
    rfl
  rw [assemble_word hm, (isHex_of_upper hupper).parseRawWord_eq]
  split_ifs <;> rfl

/-! ### Lines -/

/-- Between blanks, a text without blanks is what trimming leaves. -/
theorem trimBlanks_between {l t r : List Char} (hl : l.all isBlank = true) (hr : r.all isBlank = true)
    (ht : ∀ x ∈ t, isBlank x = false) : trimBlanks (l ++ t ++ r) = t := by
  rw [trimBlanks_append_blank hr, trimBlanks_blank_append hl, trimBlanks_of_nonblank ht]

/-- An operand with the blanks before and after it: no comma, and no blank inside (R84, log 13). -/
structure IsPiece (p : List Char × List Char × List Char) : Prop where
  before : p.1.all isBlank = true
  after : p.2.2.all isBlank = true
  nonempty : p.2.1 ≠ []
  nonblank : ∀ x ∈ p.2.1, isBlank x = false
  no_comma : ∀ x ∈ p.2.1, x ≠ ','

/-- The piece as it stands in the line. -/
def pieceText (p : List Char × List Char × List Char) : List Char := p.1 ++ p.2.1 ++ p.2.2

theorem IsPiece.text_no_comma {p : List Char × List Char × List Char} (h : IsPiece p) :
    ∀ x ∈ pieceText p, x ≠ ',' := by
  intro x hx
  obtain (hx | hx) | hx := List.mem_append.1 hx |>.imp_left List.mem_append.1
  · exact blank_ne_comma (List.all_eq_true.1 h.before x hx)
  · exact h.no_comma x hx
  · exact blank_ne_comma (List.all_eq_true.1 h.after x hx)

theorem IsPiece.trim_text {p : List Char × List Char × List Char} (h : IsPiece p) :
    trimBlanks (pieceText p) = p.2.1 :=
  trimBlanks_between h.before h.after h.nonblank

/-- Pieces joined by commas are cut at the same places again. -/
theorem splitCommas_intercalate {ts : List (List Char)} (hne : ts ≠ []) (h : ∀ t ∈ ts, ∀ x ∈ t, x ≠ ',') :
    splitCommas (List.intercalate [','] ts) = ts := by
  induction ts with
  | nil => exact absurd rfl hne
  | cons t ts ih =>
    obtain ⟨ht, hts⟩ := List.forall_mem_cons.1 h
    cases ts with
    | nil => simpa using splitCommas_no_comma ht
    | cons u us =>
      rw [List.intercalate_cons_cons, List.append_assoc, List.singleton_append, splitCommas_append_comma ht,
        ih (List.cons_ne_nil _ _) hts]

/-- The operands of a line, from what follows its mnemonic. -/
theorem operands_of_line {gap : List Char} {pieces : List (List Char × List Char × List Char)}
    (hgap : gap.all isBlank = true) (hne : pieces ≠ []) (h : ∀ p ∈ pieces, IsPiece p) :
    (splitCommas (gap ++ List.intercalate [','] (pieces.map pieceText))).map trimBlanks =
      pieces.map fun p => p.2.1 := by
  have hcommas : ∀ t ∈ pieces.map pieceText, ∀ x ∈ t, x ≠ ',' :=
    List.forall_mem_map.2 fun p hp => (h p hp).text_no_comma
  rw [map_trim_splitCommas_blank_append hgap, splitCommas_intercalate (by simpa using hne) hcommas, List.map_map]
  exact List.map_congr_left fun p hp => (h p hp).trim_text

/-- What follows the mnemonic is not blank when a piece is there: a blank text has one empty operand. -/
theorem trimBlanks_ne_nil_of_pieces {rest : List Char} {pieces : List (List Char × List Char × List Char)}
    (h : ∀ p ∈ pieces, IsPiece p) (hrest : (splitCommas rest).map trimBlanks = pieces.map fun p => p.2.1) :
    trimBlanks rest ≠ [] := by
  intro hnil
  have hempty : pieces.map (fun p => p.2.1) = [[]] := by
    rw [← hrest, ← map_trim_splitCommas_trim, hnil]
    rfl
  obtain ⟨p, hp, hp'⟩ := List.mem_map.1 (hempty ▸ List.mem_singleton_self [])
  exact (h p hp).nonempty hp'

/-- Settles O55: the gap ends the mnemonic, and the pieces between the commas, trimmed, are the operands. -/
theorem assemblerReadsLines : Obligations.AssemblerReadsLines := by
  intro before m gap pieces hbefore hgap hm hmn hgapne hpieces
  have hpieces' : ∀ p ∈ pieces, IsPiece p := fun p hp => by
    obtain ⟨hb, ha, hne, hx⟩ := hpieces p hp
    exact ⟨hb, ha, hne, fun x h => (hx x h).1, fun x h => (hx x h).2⟩
  change assembleLine (before ++ m ++ gap ++ List.intercalate [','] (pieces.map pieceText)) = _
  rw [List.append_assoc]
  by_cases hne : pieces = []
  · subst hne
    have hrest : gap ++ List.intercalate [','] (([] : List (List Char × List Char × List Char)).map pieceText) = gap :=
      List.append_nil gap
    rw [hrest, assembleLine_eq hbefore hm hmn fun x hx => List.all_eq_true.1 hgap x (List.mem_of_mem_head? hx),
      if_pos (trimBlanks_blank hgap)]
    rfl
  · have hhead : ∀ x ∈ (gap ++ List.intercalate [','] (pieces.map pieceText)).head?, isBlank x = true := by
      rw [List.head?_append_of_ne_nil _ (hgapne hne)]
      exact fun x hx => List.all_eq_true.1 hgap x (List.mem_of_mem_head? hx)
    have hoperands := operands_of_line hgap hne hpieces'
    rw [assembleLine_eq hbefore hm hmn hhead, if_neg (trimBlanks_ne_nil_of_pieces hpieces' hoperands), hoperands]

end Sys2Proof.Machine
